-- ==== Sys2Proof/Word.lean ====
section
/-! DEFINITION. The word types of the gocw TraceDecoder (spec `00_scope.md` R9, `30_encoding.md` R80, R90, R95) and
the bit vector whose width is a parameter of the built block (the wire unit `U`, the command `CMD`). -/

namespace Sys2Proof

/-- A byte of the input space `IN` (R9: "A byte is 8 bits"). -/
abbrev Byte := BitVec 8

/-- `RAW10`, R90: a 10-bit unsigned raw sample. -/
abbrev Raw10 := BitVec 10

/-- `FX10`, R90: a 10-bit two's complement number `n` standing for `n / 1024`. -/
abbrev Fx10 := BitVec 10

/-- `F64`, R95: a 64-bit IEEE-754 binary64 bit pattern. -/
abbrev F64 := BitVec 64

/-- A bit vector whose width depends on a parameter of the block (`8*G` for a wire unit, `1 + LENW` for `CMD`). -/
structure Bits where
  width : Nat
  val : BitVec width
  deriving DecidableEq, Repr

/-- Bit `i` of the vector, bit 0 the least significant (R9); positions at or above the width read 0. -/
def Bits.bit (b : Bits) (i : Nat) : Bool := b.val.getLsbD i

end Sys2Proof
end

