-- ==== Sys2Proof/Config.lean ====
section
/-! DEFINITION. What is fixed when the block is built (spec `00_scope.md` R7, R8; `30_encoding.md` R82, R86, R88, R89)
and the constants without a body: the OPEN base addresses and the values the spec leaves unspecified. -/

namespace Sys2Proof

/-- The record `fmt` of R7 and R82: bit width `W`, bytes per wire unit `G`, samples per unit `S`, header bytes `H`,
trailer bytes `T`, and for each lane the bit positions of the unit that hold its sample, most significant first. -/
structure WireFormat where
  W : Nat
  G : Nat
  S : Nat
  H : Nat
  T : Nat
  lane : List (List Nat)
  deriving DecidableEq, Repr

/-- All OPEN parameters of R7 that a rule reads: the wire format, the width `LENW` of the operand `LEN`, and the
number `OUTCAP` of 64-bit words the output space can hold. -/
structure Build where
  fmt : WireFormat
  lenW : Nat
  outCap : Nat
  deriving DecidableEq, Repr

namespace Config

/-- R8: `2^W = 1024`, the full-scale count. -/
def fullScale : Nat := 1024

/-- R8: the half-scale constant `2^(W-1) = 512`. -/
def halfScale : Nat := 512

/-- R86: the shorthand `U[hi:lo]` for a contiguous lane, `hi, hi-1, ..., lo`, given by `hi` and the number of bits. -/
def slice (hi n : Nat) : List Nat := (List.range n).map fun i => hi - i

/-- R88: `FMT_D40`, four samples in 40 bits, earliest first. -/
def fmtD40 : WireFormat :=
  { W := 10, G := 5, S := 4, H := 0, T := 0,
    lane := [slice 39 10, slice 29 10, slice 19 10, slice 9 10] }

/-- R89: `FMT_W32`, three samples and two status bits in 32 bits after a one-byte header, earliest sample lowest. -/
def fmtW32 : WireFormat :=
  { W := 10, G := 4, S := 3, H := 1, T := 0,
    lane := [slice 9 10, slice 19 10, slice 29 10] }

/-- The build that `State.reset` carries. DESIGN CHOICE (log 1): the spec leaves every field OPEN (R7, D2, D18, D19);
the statements are about every build, none about this one. Unsafe for a claim that rests on it. -/
def build : Build := { fmt := fmtD40, lenW := 23, outCap := 8388608 }

/-- R60: `IN_BASE`, OPEN, read by no rule. -/
opaque inBase : Nat
/-- R60: `OUT_BASE`, OPEN, read by no rule. -/
opaque outBase : Nat
/-- R60: `REG_BASE`, OPEN, read by no rule. -/
opaque regBase : Nat

/-- Free value (log 4): the `n`-th unspecified natural number (`pos` after a reset during operation, R230, U7). -/
opaque freeNat : Nat → Nat

/-- Free value (log 4): the `n`-th unspecified bit vector of width `w` (a datapath register after a reset, R230, U7). -/
opaque freeBits (n w : Nat) : BitVec w

end Config
end Sys2Proof
end

