-- ==== Sys2Proof/Syntax.lean ====
section
/-! DEFINITION. The operations of the block, one constructor per row of spec/opcode_table.json (`30_encoding.md` R96),
the sequencer's selections that stand where another machine has an opcode (R96, `40_decode.md` R118), and the formats
of R80. -/

namespace Sys2Proof

/-- The operations of R96. `DECODE` carries the operands of the host's `START` (R94, R112). `NORM`, `CVT` and `EMIT`
are performed once per lane (R115); their argument is the lane number `j` the sequencer is at, and their data operand
is fixed by the operation (R26: `RAW[j]`, `FX[j]`, `F64[j]`). -/
inductive Instr
  | decode (present : Bool) (len : Nat)   -- DECODE, R112
  | skip                                  -- SKIP, R114
  | unpack                                -- UNPACK, R140
  | unpackD40                             -- UNPACK.D40, R145
  | unpackW32                             -- UNPACK.W32, R146
  | norm (lane : Nat)                     -- NORM, R160
  | cvt (lane : Nat)                      -- CVT, R175
  | emit (lane : Nat)                     -- EMIT, R116
  | drop                                  -- DROP, R117
  deriving DecidableEq, Repr

/-- What selects an operation (R96's column "selected by"): the host's `START`, or the state of the sequencer alone.
No operation is selected by an opcode field. -/
inductive Select
  | start
  | skip
  | unpack
  | unpackD40
  | unpackW32
  | norm (lane : Nat)
  | cvt (lane : Nat)
  | emit (lane : Nat)
  | drop
  deriving DecidableEq, Repr

/-- The five formats of R80, and `none` for the operations that read no format (R96: `SKIP`, `DROP`). -/
inductive Format
  | cmd
  | wireUnit
  | raw10
  | fx10
  | f64
  | none
  deriving DecidableEq, Repr

end Sys2Proof
end

