-- ==== Sys2Proof/WellFormed.lean ====
section
/-! DEFINITION. The well-formedness of a wire format (spec `30_encoding.md` R82, conditions 1 to 5), of a build, and of
an operation on a build. -/

namespace Sys2Proof

/-- R82 condition 1: `W = 10`. -/
def WireFormat.widthOk (f : WireFormat) : Bool := f.W == 10

/-- R82 condition 2: `G >= 1` and `S >= 1`. -/
def WireFormat.sizesOk (f : WireFormat) : Bool := decide (1 ≤ f.G) && decide (1 ≤ f.S)

/-- R82 condition 3: `lane` has exactly `S` entries of exactly `W` positions each. -/
def WireFormat.shapeOk (f : WireFormat) : Bool :=
  (f.lane.length == f.S) && f.lane.all fun l => l.length == f.W

/-- R82 condition 4: every position lies inside the unit. -/
def WireFormat.rangeOk (f : WireFormat) : Bool := f.lane.all fun l => l.all fun p => decide (p < 8 * f.G)

/-- R82 condition 5: no bit position appears twice. -/
def WireFormat.distinctOk (f : WireFormat) : Bool := decide f.lane.flatten.Nodup

/-- R82: a well-formed `WireFormat`. -/
def WireFormat.wf (f : WireFormat) : Bool :=
  f.widthOk && f.sizesOk && f.shapeOk && f.rangeOk && f.distinctOk

/-- R82: the block is defined only for a well-formed `fmt`; `LENW` and `OUTCAP` are free (R7). -/
def Build.wf (b : Build) : Bool := b.fmt.wf

/-- Well-formed operations of a build: `LEN` fits its `LENW` bits (R22, R29), a lane number is below `S` (R30), and the
rows of the two reference formats belong to those formats (R145, R146). -/
def Instr.wf (b : Build) : Instr → Bool
  | .decode _ len => decide (len < 2 ^ b.lenW)
  | .skip => true
  | .unpack => true
  | .unpackD40 => decide (b.fmt = Config.fmtD40)
  | .unpackW32 => decide (b.fmt = Config.fmtW32)
  | .norm j => decide (j < b.fmt.S)
  | .cvt j => decide (j < b.fmt.S)
  | .emit j => decide (j < b.fmt.S)
  | .drop => true

end Sys2Proof
end

