-- ==== Sys2Proof/Decode.lean ====
section
/-! DEFINITION. Decoding and encoding (spec `30_encoding.md`): the wire unit from its bytes (R81), the samples from the
unit (R84) and `PACK`, its inverse (R147); the command `CMD` (R94); the fields of binary64 (R95); and the decoder of
operations, which reads the sequencer's selection and the host's command word (R96), with its encoder. -/

namespace Sys2Proof

/-! ### Bits -/

/-- The `n`-bit vector whose bit `i` is `f i`. -/
def bitsOfFn : (n : Nat) → (Nat → Bool) → BitVec n
  | 0, _ => 0#0
  | n + 1, f => BitVec.cons (f n) (bitsOfFn n f)

/-! ### WIREUNIT -/

/-- R54, R81: one more byte on the less significant side. -/
def joinByte (u : Bits) (x : Byte) : Bits := ⟨u.width + 8, u.val ++ x⟩

/-- R81: `U = IN[p] ∥ IN[p+1] ∥ ... ∥ IN[p+G-1]`, the first byte most significant. -/
def joinBytes (bytes : List Byte) : Bits := bytes.foldl joinByte ⟨0, 0#0⟩

/-- R81: byte `b` of a unit of `g` bytes, `U[8*(g-b)-1 : 8*(g-b)-8]`. -/
def unitByte (g : Nat) (u : Bits) (b : Nat) : Byte := u.val.extractLsb' (8 * (g - 1 - b)) 8

/-- The bytes of a unit of `g` bytes, in the order they stand in `IN`. -/
def unitBytes (g : Nat) (u : Bits) : List Byte := (List.range g).map (unitByte g u)

/-- R84: `raw_j[W-1-i] = U[lane[j][i]]` for `i = 0 .. W-1`, with `W = 10`. -/
def unpackLane (u : Bits) (lane : List Nat) : Raw10 :=
  bitsOfFn 10 fun b => u.bit (lane.getD (9 - b) 0)

/-- R140: the function `UNPACK(U)`, lane 0 first. -/
def unpackUnit (f : WireFormat) (u : Bits) : List Raw10 := f.lane.map (unpackLane u)

/-- The place of bit position `p` in a list of positions, if it is there. -/
def indexOf? (p : Nat) : List Nat → Option Nat
  | [] => none
  | q :: l => if q = p then some 0 else (indexOf? p l).map (· + 1)

/-- The lane and the index in that lane of bit position `p`; `none` for a status bit (R91). -/
def findLane (p : Nat) : List (List Nat) → Option (Nat × Nat)
  | [] => none
  | l :: ls =>
    match indexOf? p l with
    | some i => some (0, i)
    | none => (findLane p ls).map fun x => (x.1 + 1, x.2)

/-- How many positions below `p` belong to no lane. -/
def statusRank (f : WireFormat) (p : Nat) : Nat :=
  (List.range p).countP fun q => (findLane q f.lane).isNone

/-- R147, R97: bit `p` of the packed unit: the sample bit that `lane` puts there, or the next bit of the status value,
whose bits fill the non-lane positions from the most significant such position down (of a value with more bits than
that, the low ones: log 17). -/
def packBit (f : WireFormat) (raws : List Raw10) (st : Nat) (p : Nat) : Bool :=
  match findLane p f.lane with
  | some (j, i) => (raws.getD j 0).getLsbD (9 - i)
  | none => st.testBit (statusRank f p)

/-- R147: `PACK`, the inverse of `UNPACK` that the text form uses. -/
def packUnit (f : WireFormat) (raws : List Raw10) (st : Nat) : Bits :=
  ⟨8 * f.G, bitsOfFn (8 * f.G) (packBit f raws st)⟩

/-! ### F64 -/

/-- R95: the word `s ∥ e ∥ f`. -/
def f64Make (s : Bool) (e : BitVec 11) (f : BitVec 52) : F64 := BitVec.ofBool s ++ e ++ f

/-- R95: bit 63, the sign. -/
def f64Sign (w : F64) : Bool := w.getLsbD 63

/-- R95: bits 62:52, the biased exponent. -/
def f64Exp (w : F64) : BitVec 11 := w.extractLsb' 52 11

/-- R95: bits 51:0, the fraction. -/
def f64Frac (w : F64) : BitVec 52 := w.extractLsb' 0 52

/-! ### CMD and the operations -/

/-- Why the decoder refuses a word. -/
inductive DecodeError
  | cmdWidth      -- the command word is not `1 + LENW` bits wide (R94)
  | noSuchLane    -- a lane number at or above `S` (R30)
  | otherFormat   -- a row of a reference format, on a block built for another (R145, R146)
  deriving DecidableEq, Repr

/-- R94: `PRESENT`, the most significant bit of `CMD`. -/
def cmdPresent (lenW : Nat) (cmd : Bits) : Bool := cmd.bit lenW

/-- R94: `LEN`, the low `LENW` bits of `CMD`. -/
def cmdLen (lenW : Nat) (cmd : Bits) : Nat := cmd.val.toNat % 2 ^ lenW

/-- R96: the operation that a selection names; only `START` carries a word (R94), the other selections none. Total on
every selection and word, refusing by name (log 8 for the width, log 13 for the format, log 14 for the lane). -/
def decode (b : Build) (sel : Select) (word : Bits) : Except DecodeError Instr :=
  match sel with
  | .start =>
    if word.width = 1 + b.lenW then .ok (.decode (cmdPresent b.lenW word) (cmdLen b.lenW word)) else .error .cmdWidth
  | .skip => .ok .skip
  | .unpack => .ok .unpack
  | .unpackD40 => if b.fmt = Config.fmtD40 then .ok .unpackD40 else .error .otherFormat
  | .unpackW32 => if b.fmt = Config.fmtW32 then .ok .unpackW32 else .error .otherFormat
  | .norm j => if j < b.fmt.S then .ok (.norm j) else .error .noSuchLane
  | .cvt j => if j < b.fmt.S then .ok (.cvt j) else .error .noSuchLane
  | .emit j => if j < b.fmt.S then .ok (.emit j) else .error .noSuchLane
  | .drop => .ok .drop

/-- R96: which row the sequencer takes for `UNPACK`. DEDUCED (log 13): the row of a reference format when `fmt` is that
format. -/
def unpackRow (f : WireFormat) : Select :=
  if f = Config.fmtD40 then .unpackD40 else if f = Config.fmtW32 then .unpackW32 else .unpack

/-! ### The encoder -/

/-- R94: the command word, pattern `p` followed by `LENW` characters `l`. -/
def encodeCmd (lenW : Nat) (present : Bool) (len : Nat) : Bits :=
  ⟨1 + lenW, BitVec.ofBool present ++ BitVec.ofNat lenW len⟩

/-- The selection of an operation (R96). -/
def Instr.selection : Instr → Select
  | .decode _ _ => .start
  | .skip => .skip
  | .unpack => .unpack
  | .unpackD40 => .unpackD40
  | .unpackW32 => .unpackW32
  | .norm j => .norm j
  | .cvt j => .cvt j
  | .emit j => .emit j
  | .drop => .drop

/-- R94 to R96: the word that goes with an operation's selection: `CMD` for `DECODE`, no bits for the others. -/
def encodeWord (b : Build) : Instr → Bits
  | .decode present len => encodeCmd b.lenW present len
  | .skip | .unpack | .unpackD40 | .unpackW32 | .norm _ | .cvt _ | .emit _ | .drop => ⟨0, 0#0⟩

/-- An operation as its selection and its word. -/
def encode (b : Build) (i : Instr) : Select × Bits := (i.selection, encodeWord b i)

/-- R96's column "format read". -/
def Instr.format : Instr → Format
  | .decode _ _ => .cmd
  | .skip => .none
  | .unpack | .unpackD40 | .unpackW32 => .wireUnit
  | .norm _ => .raw10
  | .cvt _ => .fx10
  | .emit _ => .f64
  | .drop => .none

/-- R80: the width of a format. -/
def Format.width (b : Build) : Format → Nat
  | .cmd => 1 + b.lenW
  | .wireUnit => 8 * b.fmt.G
  | .raw10 => 10
  | .fx10 => 10
  | .f64 => 64
  | .none => 0

/-! ### The host's question about one word of the opcode table -/

/-- Which build and selection a word of `nbits` bits of spec/opcode_table.json is read with. DESIGN CHOICE (log 12): no
row has an opcode (R96), so the width of the row's pattern stands for the sequencer's state; the two rows of 10 bits
share one width, and it is read as `NORM`. -/
def tableSelect (nbits : Nat) : Option (Build × Select) :=
  match nbits with
  | 0 => some (Config.build, .skip)
  | 16 => some (Config.build, .norm 0)
  | 24 => some (Config.build, .start)
  | 32 => some ({ Config.build with fmt := Config.fmtW32 }, .unpackW32)
  | 40 => some (Config.build, .unpackD40)
  | 64 => some (Config.build, .emit 0)
  | _ => none

/-- The operation the decoder reads from a word of the table (log 12). -/
def decodeTableWord (nbits w : Nat) : Option Instr :=
  match tableSelect nbits with
  | some (b, sel) =>
    match decode b sel ⟨nbits, BitVec.ofNat nbits w⟩ with
    | .ok i => some i
    | .error _ => none
  | none => none

end Sys2Proof
end

