-- ==== Sys2Proof/Machine/State.lean ====
section
/-! DEFINITION. The state of the block during one transaction (spec `10_state.md` R22 to R25, R33), the moves of its
host (`00_scope.md` R14, `70_reset_and_hazards.md` R234), the reasons a step can stop, and the state after reset. -/

namespace Sys2Proof.Machine

/-- R24: the sequencer's phase. -/
inductive Phase
  | idle
  | run
  | done
  deriving DecidableEq, Repr

/-- The MODEL's own field (log 3): which operation of the fixed sequence of R112 and R115 comes next while
`phase = RUN`. -/
inductive Stage
  | skip              -- `phase = RUN` has just been entered: `SKIP` is next (R114)
  | unit              -- between two wire units: `UNPACK` or `DROP` is next (R115, R117)
  | norm (lane : Nat) -- inside a unit step (R115)
  | cvt (lane : Nat)
  | emit (lane : Nat)
  deriving DecidableEq, Repr

/-- A memory as (address, value) pairs with strictly rising addresses. An unlisted address holds no value: reading it
is refused or faults by name (log 5). `Memory 8` is a list of `Host.Cell`. -/
abbrev Memory (w : Nat) := List (Nat × BitVec w)

/-- What the host may read (R29, R51): the flag `DONE`, the flag `ERR`, the register `COUNT`, a word of `OUT`. -/
inductive HostRead
  | done
  | err
  | count
  | out (k : Nat)
  deriving DecidableEq, Repr

/-- The value of a host's read. -/
inductive HostValue
  | flag (b : Bool)
  | number (n : Nat)
  | word (w : F64)
  deriving DecidableEq, Repr

/-- The moves of the host (R14, R118, R234); at most one stands before each step of the block. -/
inductive HostMove
  | wait                              -- the host does nothing: the block takes its own step, if it has one
  | start (cmd : Bits)                -- `START` with the command word `CMD` (R94)
  | reset                             -- R230, always possible
  | place (bytes : List Byte)         -- put a complete buffer in `IN` (R234 step 1)
  | writeIn (i : Nat) (b : Byte)      -- write one byte of `IN` (R64, R235)
  | read (r : HostRead)               -- read a result (R234 steps 4 and 5)
  deriving DecidableEq, Repr

/-- The state. `build` is no state of the spec's (R21): it is the built constant, carried here because the step
relation's parameter `fmt` must come from somewhere, and no step writes it (log 1). `stage`, `host` and `freeIx` are
the model's own (log 3, 2, 4). -/
structure State where
  build : Build
  phase : Phase           -- R24
  stage : Stage
  pos : Nat               -- R24, R27
  present : Bool          -- R22 `PRESENT`
  len : Nat               -- R22 `LEN`
  done : Bool             -- R23 `DONE`
  err : Bool              -- R23 `ERR`
  count : Nat             -- R23 `COUNT`
  inMem : Memory 8        -- R31, R50 `IN`
  out : Memory 64         -- R23, R31, R51 `OUT`
  u : Bits                -- R25 `U`
  raw : List Raw10        -- R25 `RAW[j]`, j = 0 .. S-1
  fx : List Fx10          -- R25 `FX[j]`
  f64 : List F64          -- R25 `F64[j]`
  host : List HostMove
  freeIx : Nat
  deriving DecidableEq, Repr

/-- Why the machine stops with a fault. Neither is reached in a run of the machine: they are the reads the spec leaves
no meaning to, in states that no run holds. -/
inductive Fault
  /-- Raised by the load of a wire unit when a byte of `IN` it reads does not exist (R57: `MemRead(i, 1)` is defined
  only for `0 <= i < LEN`, and the host guarantees `LEN` readable bytes). Safe: the model stops. -/
  | inByteAbsent (i : Nat)
  /-- Raised by `NORM`, `CVT` and `EMIT` for a lane register that does not exist (R30: `0 <= j < S`). Safe. -/
  | noSuchLane (j : Nat)
  deriving DecidableEq, Repr

/-- Why the machine refuses. Each is a move to which the spec gives no meaning, and says so. -/
inductive Refusal
  /-- An operation without a meaning in this model. No arm answers it. Safe. -/
  | notModelled (mnemonic : String)
  /-- Raised by `step` when the built `fmt` is not well formed (R82). Safe. -/
  | illFormedFormat
  /-- Raised by `step` when the decoder refuses: the host's command word is not a `CMD` of this build (R94), or, in a
  state no run holds, the sequencer names a lane that does not exist. Safe. -/
  | undecoded (e : DecodeError)
  /-- Raised by `DECODE` while `phase = RUN` (R112, R202, U6). Safe. -/
  | startWhileRunning
  /-- Raised by `DECODE` when `IN` holds fewer than `LEN` readable bytes (R202, D28, U4). Safe. -/
  | inputTooShort
  /-- Raised by `DECODE` when `OUT` has fewer than `count(LEN)` words (R51, R202, D18, U4). Safe. -/
  | outputTooSmall
  /-- Raised by `EMIT` when `COUNT = OUTCAP` before the write (R116). Safe. -/
  | outputFull
  /-- Raised by `DROP` where it is not enabled (R117: "Enabled when"). Safe. -/
  | dropNotEnabled
  /-- Raised by `UNPACK.D40` and `UNPACK.W32` on a block built for another format (R145, R146). Safe. -/
  | otherFormat
  /-- Raised by `step` when the host writes a byte of the buffer while `phase = RUN` (R64, R235, U2). Safe. -/
  | inputWrittenWhileRunning
  /-- Raised by `step` when the host reads `OUT`, `COUNT` or `ERR` before `DONE = 1` (R62, R236, U8). Safe. -/
  | readBeforeDone
  /-- Raised by `step` when the host reads a word of `OUT` that is not part of the Trace (R59, D26). Safe. -/
  | readOutsideTrace
  deriving DecidableEq, Repr

/-- The state after reset of a block built with `b` (R33): `phase = IDLE`, `DONE = ERR = COUNT = 0`, `OUT` with no word
that holds a value (log 16). DESIGN CHOICE: `pos` and the datapath registers, unspecified after reset, are 0 (log 4),
and the operands, for which the spec gives no reset value, are 0 (log 6); `IN`, not touched by reset, holds nothing
yet (log 5). -/
def State.resetOf (b : Build) : State :=
  { build := b, phase := .idle, stage := .skip, pos := 0, present := false, len := 0,
    done := false, err := false, count := 0, inMem := [], out := [],
    u := ⟨8 * b.fmt.G, 0#(8 * b.fmt.G)⟩,
    raw := List.replicate b.fmt.S 0#10, fx := List.replicate b.fmt.S 0#10, f64 := List.replicate b.fmt.S 0#64,
    host := [], freeIx := 0 }

/-- The machine right after reset, for the build of `Config.build` (log 1, log 4). -/
def State.reset : State := State.resetOf Config.build

end Sys2Proof.Machine
end

