-- ==== Sys2Proof/Machine/Flags.lean ====
section
/-! DEFINITION. The two flags `DONE` and `ERR` and the result register `COUNT` (spec `10_state.md` R23, R28). No
datapath operation sets a flag: there is no carry, overflow, zero, negative, inexact, invalid or underflow flag. -/

namespace Sys2Proof.Machine

/-- R112: the first three lines of `DECODE`, `DONE <- 0; ERR <- 0; COUNT <- 0`. -/
def clearResults (s : State) : State := { s with done := false, err := false, count := 0 }

/-- R24, R28: `phase <- DONE; DONE <- 1`, the end of every transaction. -/
def signalDone (s : State) : State := { s with phase := .done, done := true }

/-- R28, R200: `ERR <- 1; COUNT <- 0`. -/
def signalError (s : State) : State := { s with err := true, count := 0 }

end Sys2Proof.Machine
end

