-- ==== Sys2Proof/Machine/Trace.lean ====
section
/-! DEFINITION. The function the block computes (spec `40_decode.md` R110, R111), with the pure functions of the two
arithmetic stages (`42_normalize.md` R160, `43_convert.md` R175) and the meaning of a result word (`30_encoding.md`
R95). `30_encoding.md`'s `UNPACK` stands in Sys2Proof/Decode.lean. -/

namespace Sys2Proof.Machine

/-- R160: `x <- r XOR 0b1000000000`. -/
def normFn (r : Raw10) : Fx10 := r ^^^ 0b1000000000#10

/-- R175: the sign, the exponent `1013 + p` and the left-aligned fraction of the magnitude; `+0` for 0. -/
def cvtFn (x : Fx10) : F64 :=
  let n : Int := x.toInt
  if n = 0 then 0x0000000000000000#64
  else
    let s : Bool := decide (n < 0)
    let m : Nat := n.natAbs
    let p : Nat := Nat.log2 m
    let e : Nat := 1013 + p
    let f : Nat := (m - 2 ^ p) * 2 ^ (52 - p)
    f64Make s (BitVec.ofNat 11 e) (BitVec.ofNat 52 f)

/-- The word of one raw sample, `CVT(NORM(r))`. -/
def sampleWord (r : Raw10) : F64 := cvtFn (normFn r)

/-- R111: the number of complete wire units of a buffer of length `l`. -/
def unitsOf (f : WireFormat) (l : Nat) : Nat := if f.H + f.T ≤ l then (l - f.H - f.T) / f.G else 0

/-- R111: the number of samples, `S * units(L)`. -/
def countOf (f : WireFormat) (l : Nat) : Nat := f.S * unitsOf f l

/-- R81, R83: wire unit `k` of a buffer, the `G` bytes from `H + k*G` on. -/
def unitAt (f : WireFormat) (buf : List Byte) (k : Nat) : Bits :=
  joinBytes ((buf.drop (f.H + k * f.G)).take f.G)

/-- R110: the `S` words of wire unit `k`, lane 0 first. -/
def unitWords (f : WireFormat) (buf : List Byte) (k : Nat) : List F64 :=
  (unpackUnit f (unitAt f buf k)).map sampleWord

/-- R110: `decode(fmt, BUF)`, the words of all complete units in order. This function is the normative behaviour of the
block (`00_scope.md` R13). -/
def decodeBuf (f : WireFormat) (buf : List Byte) : List F64 :=
  (List.range (unitsOf f buf.length)).flatMap (unitWords f buf)

/-- R95: the value of a binary64 word that is a normal number or a zero; `none` for the words to which R95 gives no
value (subnormal, infinity, NaN), which the block never produces (R179). -/
def f64Value (w : F64) : Option Rat :=
  let e : Nat := (f64Exp w).toNat
  let f : Nat := (f64Frac w).toNat
  let sg : Int := if f64Sign w then -1 else 1
  if e = 0 then (if f = 0 then some 0 else none)
  else if e = 2047 then none
  else if 1075 ≤ e then some ((sg * ((2 ^ 52 + f) * 2 ^ (e - 1075) : Nat) : Int) : Rat)
  else some (mkRat (sg * (2 ^ 52 + f : Nat)) (2 ^ (1075 - e)))

/-- R161: the real number a raw sample stands for, the source's `raw / 2^W - 0.5`. -/
def sampleValue (r : Raw10) : Rat := (r.toNat : Rat) / 1024 - 1 / 2

end Sys2Proof.Machine
end

