-- ==== Sys2Proof/Machine/Ops.lean ====
section
/-! DEFINITION. The named operations over memory, registers and the interface: `MemRead` and `MemWrite` (spec
`00_scope.md` R11), the lane registers, the load of a wire unit (`40_decode.md` R115), the one exception
(`60_exceptions.md` R200), the host's reset (`70_reset_and_hazards.md` R230) and the host's reads (`20_memory.md` R62). -/

namespace Sys2Proof.Machine

/-! ### Memory -/

/-- The value at an address, if the memory lists one. -/
def Memory.read {w : Nat} : Memory w → Nat → Option (BitVec w)
  | [], _ => none
  | (b, v) :: m, a => if a = b then some v else Memory.read m a

/-- Store one value, keeping the addresses strictly rising. -/
def Memory.write {w : Nat} : Memory w → Nat → BitVec w → Memory w
  | [], a, v => [(a, v)]
  | (b, x) :: m, a, v =>
    if a < b then (a, v) :: (b, x) :: m
    else if a = b then (a, v) :: m
    else (b, x) :: Memory.write m a v

/-- The canonical form: strictly rising addresses. An unlisted address holds no value, so no entry can equal what one
reads as. -/
abbrev Memory.wf {w : Nat} (m : Memory w) : Prop := m.Pairwise fun x y => x.1 < y.1

/-- The memory that holds `vs` from address `a` on, and nothing else. -/
def Memory.fromList {w : Nat} (a : Nat) : List (BitVec w) → Memory w
  | [] => []
  | v :: vs => (a, v) :: Memory.fromList (a + 1) vs

/-- R22, D28: `IN` holds the bytes `0 .. n-1`. -/
def inHolds (m : Memory 8) (n : Nat) : Bool := (List.range n).all fun i => (Memory.read m i).isSome

/-- R22: the buffer of `n` bytes in `IN`, `BUF[i] = MemRead(i, 1)` for `i = 0 .. n-1`. -/
def bufOf (m : Memory 8) (n : Nat) : List Byte := (List.range n).map fun i => (Memory.read m i).getD 0

/-- R22: the buffer `BUF` of the transaction. -/
def State.buf (s : State) : List Byte := bufOf s.inMem s.len

/-- R23: the Trace, `OUT[0..COUNT)`. -/
def State.trace (s : State) : List (Option F64) := (List.range s.count).map fun k => Memory.read s.out k

/-- R11, R57: `MemRead(i, 1)`, defined only for `0 <= i < LEN`. -/
def memRead (s : State) (i : Nat) : Except Fault Byte :=
  if i < s.len then
    match Memory.read s.inMem i with
    | some b => .ok b
    | none => .error (.inByteAbsent i)
  else .error (.inByteAbsent i)

/-- The bytes at `p, p+1, ..., p+n-1`, read in that order (R61). -/
def memReads (s : State) (p : Nat) : Nat → Except Fault (List Byte)
  | 0 => .ok []
  | n + 1 =>
    match memRead s p with
    | .ok b =>
      match memReads s (p + 1) n with
      | .ok bs => .ok (b :: bs)
      | .error e => .error e
    | .error e => .error e

/-- R11, R116: `MemWrite(k, 8, v)`. -/
def memWrite (k : Nat) (v : F64) (s : State) : State := { s with out := Memory.write s.out k v }

/-! ### Registers -/

/-- R27: `pos <- v`. -/
def setPos (v : Nat) (s : State) : State := { s with pos := v }

/-- The sequencer goes to another operation (log 3). -/
def setStage (g : Stage) (s : State) : State := { s with stage := g }

/-- `U <- v` (R25). -/
def setU (v : Bits) (s : State) : State := { s with u := v }

/-- `RAW[j] <- v_j` for every lane (R140). -/
def setRaws (v : List Raw10) (s : State) : State := { s with raw := v }

/-- `FX[j] <- v` (R160). -/
def setFx (j : Nat) (v : Fx10) (s : State) : State := { s with fx := s.fx.set j v }

/-- `F64[j] <- v` (R175). -/
def setF64 (j : Nat) (v : F64) (s : State) : State := { s with f64 := s.f64.set j v }

/-- R116: `COUNT <- COUNT + 1`. -/
def bumpCount (s : State) : State := { s with count := s.count + 1 }

/-- `IN` as the host leaves it (R64). -/
def setIn (m : Memory 8) (s : State) : State := { s with inMem := m }

/-- The host's moves still to come (log 2). -/
def setHost (h : List HostMove) (s : State) : State := { s with host := h }

/-- Lane register `j` of a register file of `S` registers (R30). -/
def readLane {w : Nat} (regs : List (BitVec w)) (j : Nat) : Except Fault (BitVec w) :=
  match regs[j]? with
  | some v => .ok v
  | none => .error (.noSuchLane j)

/-! ### The transaction -/

/-- R22, R118 `start-ok`: the operands are latched and `phase <- RUN`; `SKIP` comes next. -/
def enterRun (len : Nat) (s : State) : State :=
  { s with present := true, len := len, phase := .run, stage := .skip }

/-- R22: the operand `PRESENT = 0` of the transaction; `LEN` is ignored. -/
def latchAbsent (s : State) : State := { s with present := false }

/-- R200: `raise ContractViolation()`, the one exception: `ERR <- 1; COUNT <- 0; phase <- DONE; DONE <- 1`, no
`MemRead`, no `MemWrite`. There is no handler, vector, saved counter or mode change (R205), and no return: `ERR` stays
1 until the next `START` or a reset (R207). -/
def raiseContractViolation (s : State) : State := signalDone (signalError s)

/-- R115: a complete unit remains before the trailer, `pos + G + T <= LEN`. -/
def unitRemains (s : State) : Bool := decide (s.pos + s.build.fmt.G + s.build.fmt.T ≤ s.len)

/-- R115: `U <- MemRead(pos, 1) ∥ ... ∥ MemRead(pos+G-1, 1)`, the only reads of `IN`. -/
def loadUnit (s : State) : Except Fault State :=
  match memReads s s.pos s.build.fmt.G with
  | .ok bs => .ok (setU (joinBytes bs) s)
  | .error e => .error e

/-- R230, R231: the host's reset: `phase <- IDLE; DONE <- 0; ERR <- 0; COUNT <- 0`, `pos` and the datapath registers
free values (log 4), no word of `OUT` with a value (log 16), `IN` and `fmt` not touched. -/
def resetMove (s : State) : State :=
  { s with
    phase := .idle, stage := .skip, done := false, err := false, count := 0, out := [],
    pos := Config.freeNat s.freeIx,
    u := ⟨8 * s.build.fmt.G, Config.freeBits s.freeIx (8 * s.build.fmt.G)⟩,
    raw := (List.range s.build.fmt.S).map fun j => Config.freeBits (s.freeIx + 1 + j) 10,
    fx := (List.range s.build.fmt.S).map fun j => Config.freeBits (s.freeIx + 1 + s.build.fmt.S + j) 10,
    f64 := (List.range s.build.fmt.S).map fun j => Config.freeBits (s.freeIx + 1 + j) 64,
    freeIx := s.freeIx + 1 + 2 * s.build.fmt.S }

/-! ### The host's reads -/

/-- R29, R62, R236: the host reads `DONE` at any time, and `ERR`, `COUNT` and the words of the Trace while
`DONE = 1`. DESIGN CHOICE (log 11): refused are also `ERR` in `IDLE` and a word of `OUT` at `COUNT` or above. -/
def hostRead (s : State) (r : HostRead) : Except Refusal HostValue :=
  match r with
  | .done => .ok (.flag s.done)
  | .err => if s.done then .ok (.flag s.err) else .error .readBeforeDone
  | .count => if s.done then .ok (.number s.count) else .error .readBeforeDone
  | .out k =>
    if s.done then
      if k < s.count then
        match Memory.read s.out k with
        | some w => .ok (.word w)
        | none => .error .readOutsideTrace
      else .error .readOutsideTrace
    else .error .readBeforeDone

/-- R64, R235: may the host write byte `i` of `IN` now? Not a byte of the buffer while `phase = RUN`; at `LEN` or
above it may (log 10, DEDUCED). -/
def mayWriteIn (s : State) (i : Nat) : Bool := !(s.phase == .run && decide (i < s.len))

end Sys2Proof.Machine
end

