-- ==== Sys2Proof/Machine/Operands.lean ====
section
/-! DEFINITION. The operand of each operation (spec `10_state.md` R26: every operand is fixed by the operation;
`UNPACK` reads `U`, `NORM` reads `RAW[j]`, `CVT` reads `FX[j]`, and `EMIT` the word `F64[j]` of `40_decode.md` R115). -/

namespace Sys2Proof.Machine

/-- The operand of `UNPACK`: the current wire unit `U` (R140). -/
def unpackOperand (s : State) : Bits := s.u

/-- The operand of `NORM`: `RAW[j]` (R160). -/
def normOperand (s : State) (j : Nat) : Except Fault Raw10 := readLane s.raw j

/-- The operand of `CVT`: `FX[j]` (R175). -/
def cvtOperand (s : State) (j : Nat) : Except Fault Fx10 := readLane s.fx j

/-- The operand of `EMIT`: `F64[j]` (R116). -/
def emitOperand (s : State) (j : Nat) : Except Fault F64 := readLane s.f64 j

end Sys2Proof.Machine
end

