-- ==== Sys2Proof/Machine/Converter.lean ====
section
/-! DEFINITION. The fixed-point-to-float converter (spec `43_convert.md`): `CVT` R175. Its function is `cvtFn`. -/

namespace Sys2Proof.Machine

/-- R175: `F64[j] <- CVT(FX[j])`. -/
def execCvt (j : Nat) (s : State) : Host.Outcome State Fault Refusal :=
  match cvtOperand s j with
  | .error e => .fault e
  | .ok x => .next (setF64 j (cvtFn x) s)

end Sys2Proof.Machine
end

