-- ==== Sys2Proof/Machine/Normalizer.lean ====
section
/-! DEFINITION. The quantization normalizer (spec `42_normalize.md`): `NORM` R160. Its function is `normFn`. -/

namespace Sys2Proof.Machine

/-- R160: `FX[j] <- NORM(RAW[j])`. -/
def execNorm (j : Nat) (s : State) : Host.Outcome State Fault Refusal :=
  match normOperand s j with
  | .error e => .fault e
  | .ok r => .next (setFx j (normFn r) s)

end Sys2Proof.Machine
end

