-- ==== Sys2Proof/Machine/Sequencer.lean ====
section
/-! DEFINITION. The operations of the sequencer (spec `40_decode.md`): `DECODE` R112, `SKIP` R114, `EMIT` R116 and
`DROP` R117. -/

namespace Sys2Proof.Machine

/-- R112: accepted when `phase` is `IDLE` or `DONE`. Clears `DONE`, `ERR` and `COUNT`; with `PRESENT = 0` takes the
exception of R200; otherwise latches the operands and enters `phase = RUN`, where the sequencer runs `SKIP`, the unit
steps and `DROP` (R118). A buffer that `IN` does not hold and a result that `OUT` cannot hold have no meaning (R202). -/
def execDecode (present : Bool) (len : Nat) (s : State) : Host.Outcome State Fault Refusal :=
  if s.phase = .run then .refused .startWhileRunning
  else if present = false then .next (raiseContractViolation (latchAbsent (clearResults s)))
  else if inHolds s.inMem len = false then .refused .inputTooShort
  else if s.build.outCap < countOf s.build.fmt len then .refused .outputTooSmall
  else .next (enterRun len (clearResults s))

/-- R114: `pos <- H`. -/
def execSkip (s : State) : Host.Outcome State Fault Refusal := .next (setPos s.build.fmt.H s)

/-- R116: `MemWrite(COUNT, 8, v); COUNT <- COUNT + 1` with `v = F64[j]`; no meaning when `COUNT = OUTCAP`. -/
def execEmit (j : Nat) (s : State) : Host.Outcome State Fault Refusal :=
  match emitOperand s j with
  | .error e => .fault e
  | .ok v => if s.build.outCap ≤ s.count then .refused .outputFull else .next (bumpCount (memWrite s.count v s))

/-- R117: enabled when `phase = RUN` and `pos + G + T > LEN`; `phase <- DONE; DONE <- 1`. -/
def execDrop (s : State) : Host.Outcome State Fault Refusal :=
  if s.phase = .run ∧ unitRemains s = false then .next (signalDone s) else .refused .dropNotEnabled

end Sys2Proof.Machine
end

