-- ==== Sys2Proof/Machine/Unpacker.lean ====
section
/-! DEFINITION. The sample unpacker (spec `41_unpack.md`): `UNPACK` R140 and its two reference rows R145, R146. -/

namespace Sys2Proof.Machine

/-- R140: `RAW[j] <- UNPACK(U)[j]` for every lane `j`. -/
def execUnpack (s : State) : Host.Outcome State Fault Refusal :=
  .next (setRaws (unpackUnit s.build.fmt (unpackOperand s)) s)

/-- R145, written out: `r_0 = U[39:30]`, `r_1 = U[29:20]`, `r_2 = U[19:10]`, `r_3 = U[9:0]`. -/
def unpackD40 (u : Bits) : List Raw10 :=
  [u.val.extractLsb' 30 10, u.val.extractLsb' 20 10, u.val.extractLsb' 10 10, u.val.extractLsb' 0 10]

/-- R145: `UNPACK` for a block built with `FMT_D40`. DEDUCED (log 13): refused on another format. -/
def execUnpackD40 (s : State) : Host.Outcome State Fault Refusal :=
  if s.build.fmt = Config.fmtD40 then .next (setRaws (unpackD40 (unpackOperand s)) s) else .refused .otherFormat

/-- R146, written out: `r_0 = U[9:0]`, `r_1 = U[19:10]`, `r_2 = U[29:20]`; the status bits `U[31:30]` are dropped. -/
def unpackW32 (u : Bits) : List Raw10 :=
  [u.val.extractLsb' 0 10, u.val.extractLsb' 10 10, u.val.extractLsb' 20 10]

/-- R146: `UNPACK` for a block built with `FMT_W32`. DEDUCED (log 13): refused on another format. -/
def execUnpackW32 (s : State) : Host.Outcome State Fault Refusal :=
  if s.build.fmt = Config.fmtW32 then .next (setRaws (unpackW32 (unpackOperand s)) s) else .refused .otherFormat

end Sys2Proof.Machine
end

