-- ==== Sys2Proof/Machine/Dispatch.lean ====
section
/-! DEFINITION. One arm per operation of spec/opcode_table.json. -/

namespace Sys2Proof.Machine

def exec (i : Instr) (s : State) : Host.Outcome State Fault Refusal :=
  match i with
  | .decode present len => Sys2Proof.Machine.execDecode present len s
  | .skip => Sys2Proof.Machine.execSkip s
  | .unpack => Sys2Proof.Machine.execUnpack s
  | .unpackD40 => Sys2Proof.Machine.execUnpackD40 s
  | .unpackW32 => Sys2Proof.Machine.execUnpackW32 s
  | .norm lane => Sys2Proof.Machine.execNorm lane s
  | .cvt lane => Sys2Proof.Machine.execCvt lane s
  | .emit lane => Sys2Proof.Machine.execEmit lane s
  | .drop => Sys2Proof.Machine.execDrop s

end Sys2Proof.Machine
end

