-- ==== Sys2Proof/Machine/Cycle.lean ====
section
/-! DEFINITION. One step of the machine (spec `40_decode.md` R112, R115, R118): which operation the sequencer selects,
the load of the wire unit before `UNPACK`, where the sequencer goes after an operation, and the moves of the host. -/

namespace Sys2Proof.Machine

/-- R96, R118: the operation the sequencer's state selects while `phase = RUN`. -/
def selected (s : State) : Select :=
  match s.stage with
  | .skip => .skip
  | .unit => if unitRemains s then unpackRow s.build.fmt else .drop
  | .norm j => .norm j
  | .cvt j => .cvt j
  | .emit j => .emit j

/-- R115: what the sequencer does before an operation: it loads `U` before `UNPACK`, and nothing before the others. -/
def fetchOperand (i : Instr) (s : State) : Except Fault State :=
  match i with
  | .unpack => loadUnit s
  | .unpackD40 => loadUnit s
  | .unpackW32 => loadUnit s
  | .decode _ _ => .ok s
  | .skip => .ok s
  | .norm _ => .ok s
  | .cvt _ => .ok s
  | .emit _ => .ok s
  | .drop => .ok s

/-- R115: where the sequencer goes after an operation: the four loops over the lanes in their order, then
`pos <- pos + G`. `DECODE` and `DROP` write `phase` themselves. -/
def advance (i : Instr) (s : State) : State :=
  match i with
  | .decode _ _ => s
  | .skip => setStage .unit s
  | .unpack => setStage (.norm 0) s
  | .unpackD40 => setStage (.norm 0) s
  | .unpackW32 => setStage (.norm 0) s
  | .norm j => setStage (if j + 1 < s.build.fmt.S then .norm (j + 1) else .cvt 0) s
  | .cvt j => setStage (if j + 1 < s.build.fmt.S then .cvt (j + 1) else .emit 0) s
  | .emit j =>
    if j + 1 < s.build.fmt.S then setStage (.emit (j + 1)) s
    else setStage .unit (setPos (s.pos + s.build.fmt.G) s)
  | .drop => s

/-- One operation with what the sequencer does around it. -/
def runOp (i : Instr) (s : State) : Host.Outcome State Fault Refusal :=
  match fetchOperand i s with
  | .error e => .fault e
  | .ok s1 =>
    match exec i s1 with
    | .next s2 => .next (advance i s2)
    | .fault e => .fault e
    | .refused r => .refused r

/-- R118: the block's own step. In `IDLE` and `DONE` it has none and waits for the host: the state stays. -/
def blockStep (s : State) : Host.Outcome State Fault Refusal :=
  match s.phase with
  | .idle => .next s
  | .done => .next s
  | .run =>
    match decode s.build (selected s) ⟨0, 0#0⟩ with
    | .ok i => runOp i s
    | .error e => .refused (.undecoded e)

/-- A move of the host (R14, R118, R230, R234); on `wait` the block takes its own step. -/
def hostMove (m : HostMove) (s : State) : Host.Outcome State Fault Refusal :=
  match m with
  | .wait => blockStep s
  | .start cmd =>
    match decode s.build .start cmd with
    | .ok i => runOp i s
    | .error e => .refused (.undecoded e)
  | .reset => .next (resetMove s)
  | .place bytes =>
    if s.phase = .run then .refused .inputWrittenWhileRunning
    else .next (setIn (Memory.fromList 0 bytes) s)
  | .writeIn i b =>
    if mayWriteIn s i then .next (setIn (Memory.write s.inMem i b) s) else .refused .inputWrittenWhileRunning
  | .read r =>
    match hostRead s r with
    | .ok _ => .next s
    | .error e => .refused e

/-- One step: the host's next move, or the block's own step when the host makes none. -/
def cycle (s : State) : Host.Outcome State Fault Refusal :=
  match s.host with
  | [] => blockStep s
  | m :: rest => hostMove m (setHost rest s)

/-! ### Placing one operation where the next step takes it (for the host's question, log 12) -/

/-- The state of a block built with another format: the register files take the sizes of the new one. -/
def withFormat (f : WireFormat) (s : State) : State :=
  if s.build.fmt = f then s
  else
    { s with
      build := { s.build with fmt := f },
      u := ⟨8 * f.G, 0#(8 * f.G)⟩,
      raw := List.replicate f.S 0#10, fx := List.replicate f.S 0#10, f64 := List.replicate f.S 0#64 }

/-- A transaction in progress, at one operation. -/
def atStage (g : Stage) (s : State) : State :=
  { s with phase := .run, stage := g, present := true, done := false, err := false, host := [] }

/-- A transaction at a unit boundary whose buffer ends with the given unit. -/
def atUnit (bytes : List Byte) (s : State) : State :=
  let p := s.build.fmt.H
  { atStage .unit s with
    pos := p, len := p + bytes.length + s.build.fmt.T,
    inMem := Memory.fromList 0 (List.replicate p 0#8 ++ bytes ++ List.replicate s.build.fmt.T 0#8) }

/-- The word of one operation, where the next step takes it: the command port, the wire unit in `IN`, or the register
that holds the operand (log 12). -/
def placeWord (s : State) (nbits w : Nat) : State :=
  match tableSelect nbits with
  | none => s
  | some (b, sel) =>
    let t := { withFormat b.fmt s with build := b }
    match sel with
    | .start => { t with phase := .idle, done := false, host := [.start ⟨nbits, BitVec.ofNat nbits w⟩] }
    | .skip => atStage .skip t
    | .unpack => atUnit (unitBytes b.fmt.G ⟨nbits, BitVec.ofNat nbits w⟩) t
    | .unpackD40 => atUnit (unitBytes b.fmt.G ⟨nbits, BitVec.ofNat nbits w⟩) t
    | .unpackW32 => atUnit (unitBytes b.fmt.G ⟨nbits, BitVec.ofNat nbits w⟩) t
    | .norm j => atStage (.norm j) { t with raw := t.raw.set j (BitVec.ofNat 10 w) }
    | .cvt j => atStage (.cvt j) { t with fx := t.fx.set j (BitVec.ofNat 10 w) }
    | .emit j => atStage (.emit j) { t with f64 := t.f64.set j (BitVec.ofNat 64 w) }
    | .drop => { atStage .unit t with pos := b.fmt.H, len := 0 }

end Sys2Proof.Machine
end

