-- ==== Sys2Proof/Machine/Step.lean ====
section
/-! DEFINITION. The step function and the placing of one word of the opcode table. -/

namespace Sys2Proof.Machine

/-- One step of the machine; R82: the block is defined only for a well-formed `fmt`. -/
def step (s : State) : Host.Outcome State Fault Refusal :=
  if s.build.wf then cycle s else .refused .illFormedFormat

/-- `s` with the operation of a table word where the next step takes it (log 12). -/
def State.withFetchWord (s : State) (nbits w : Nat) : State := placeWord s nbits w

end Sys2Proof.Machine
end

