-- ==== Sys2Proof/Machine/Fleet.lean ====
section
/-! DEFINITION. Several blocks side by side (spec `60_exceptions.md` R210, `20_memory.md` R65): each has its own state
and no signal runs between them. -/

namespace Sys2Proof.Machine

/-- R210: instance `k` takes a step; the others do not (log 18). -/
def fleetStep (k : Nat) (fleet : List State) : Host.Outcome (List State) Fault Refusal :=
  match fleet[k]? with
  | none => .next fleet
  | some s =>
    match step s with
    | .next t => .next (fleet.set k t)
    | .fault e => .fault e
    | .refused r => .refused r

end Sys2Proof.Machine
end

