-- ==== Sys2Proof/Machine/Listing.lean ====
section
/-! DEFINITION. The text form of a transaction (spec `30_encoding.md` R97 to R99): the lines of a listing and the bytes
they produce, and the line a result is printed as. It is not part of the block (D23); it writes buffers for it. -/

namespace Sys2Proof.Machine

/-- The data lines of R97 and the pseudo-lines of R98. -/
inductive Line
  | hdr (bytes : List Byte)
  | unit (raws : List Raw10) (st : Nat)
  | raw (bytes : List Byte)
  | trl (bytes : List Byte)
  | fill (n : Nat) (x : Byte)
  | zeros (n : Nat)
  | ones (n : Nat)
  | val (values : List Rat)
  deriving DecidableEq, Repr

/-- A listing of one transaction: the `fmt` in force, and either `.absent` or data lines. -/
structure Listing where
  fmt : WireFormat
  absent : Bool
  lines : List Line
  deriving DecidableEq, Repr

/-- R97: the formats a `.fmt` line can name. -/
def formatNamed (name : String) : Option WireFormat :=
  if name = "FMT_D40" then some Config.fmtD40
  else if name = "FMT_W32" then some Config.fmtW32
  else none

/-- R97: one wire unit, `S` samples and a status value, as its `G` bytes (R147). -/
def unitLine (f : WireFormat) (raws : List Raw10) (st : Nat) : Option (List Byte) :=
  if raws.length = f.S then some (unitBytes f.G (packUnit f raws st)) else none

/-- R98: `rj = vj * 1024 + 512`, for a multiple of 1/1024 in range. -/
def rawOfValue (v : Rat) : Option Raw10 :=
  let x := v * 1024 + 512
  if x.den = 1 ∧ 0 ≤ x.num ∧ x.num < 1024 then some (BitVec.ofNat 10 x.num.toNat) else none

/-- The raw samples of `.val`'s values, if all have one. -/
def rawsOfValues : List Rat → Option (List Raw10)
  | [] => some []
  | v :: vs =>
    match rawOfValue v, rawsOfValues vs with
    | some r, some rs => some (r :: rs)
    | _, _ => none

/-- R98: `.val` as `.unit` lines of `S` samples each; the list length is a multiple of `S`. `n` bounds the units. -/
def unitsOfRaws (f : WireFormat) : Nat → List Raw10 → Option (List Byte)
  | 0, raws => if raws = [] then some [] else none
  | n + 1, raws =>
    if raws = [] then some []
    else
      match unitLine f (raws.take f.S) 0, unitsOfRaws f n (raws.drop f.S) with
      | some b, some bs => some (b ++ bs)
      | _, _ => none

/-- R97, R98: the bytes a line produces; `none` where the line is not one the rules allow. -/
def Line.bytes (f : WireFormat) : Line → Option (List Byte)
  | .hdr bs => if bs.length = f.H then some bs else none
  | .unit raws st => unitLine f raws st
  | .raw bs => some bs
  | .trl bs => if bs.length = f.T then some bs else none
  | .fill n x => some (List.replicate n x)
  | .zeros n => some (List.replicate n 0x00#8)
  | .ones n => some (List.replicate n 0xFF#8)
  | .val vs =>
    match rawsOfValues vs with
    | some raws => unitsOfRaws f raws.length raws
    | none => none

/-- The bytes of all lines in order. -/
def linesBytes (f : WireFormat) : List Line → Option (List Byte)
  | [] => some []
  | l :: ls =>
    match l.bytes f, linesBytes f ls with
    | some b, some bs => some (b ++ bs)
    | _, _ => none

/-- R97: the operand `PRESENT` and the buffer of a listing; `.absent` has no data line beside it, and `LEN` is the
number of bytes produced. -/
def Listing.assemble (t : Listing) : Option (Bool × List Byte) :=
  if t.absent then (if t.lines = [] then some (false, []) else none)
  else
    match linesBytes t.fmt t.lines with
    | some bs => some (true, bs)
    | none => none

/-! ### Results (R99) -/

/-- The raw sample a result word stands for, `r = value * 1024 + 512` (R130). -/
def rawOfWord (w : F64) : Option Raw10 :=
  match f64Value w with
  | some v => rawOfValue v
  | none => none

/-- One hexadecimal digit, upper case. -/
def hexDigit (n : Nat) : Char := Char.ofNat (if n < 10 then 48 + n else 55 + n)

/-- The low `n` hexadecimal digits of a number, most significant first. -/
def hexDigits : Nat → Nat → List Char
  | 0, _ => []
  | n + 1, v => hexDigits n (v / 16) ++ [hexDigit (v % 16)]

/-- The low `n` decimal digits of a number, most significant first. -/
def decDigits : Nat → Nat → List Char
  | 0, _ => []
  | n + 1, v => decDigits n (v / 10) ++ [Char.ofNat (48 + v % 10)]

/-- A digit string without its trailing zeros, but with at least one digit. -/
def trimZeros (ds : List Char) : List Char :=
  match (ds.reverse.dropWhile (· == '0')).reverse with
  | [] => ['0']
  | d :: r => d :: r

/-- A digit string without its leading zeros, but with at least one digit. -/
def trimLeading (ds : List Char) : List Char :=
  match ds.dropWhile (· == '0') with
  | [] => ['0']
  | d :: r => d :: r

/-- A number in decimal (at most 30 digits). -/
def natChars (n : Nat) : List Char := trimLeading (decDigits 30 n)

/-- An integer in decimal. -/
def intChars (n : Int) : List Char := (if n < 0 then ['-'] else []) ++ natChars n.natAbs

/-- R99: the exact decimal of `n / 1024` for `|n| < 1024`, at most 10 fraction digits. -/
def valueChars (n : Int) : List Char :=
  (if n < 0 then ['-'] else []) ++ ['0', '.'] ++ trimZeros (decDigits 10 (n.natAbs * 9765625))

/-- R99: the line of output word `k`; `none` for a word that is no result. -/
def resultChars (k : Nat) (w : F64) : Option (List Char) :=
  match rawOfWord w with
  | some r =>
    let n : Int := (r.toNat : Int) - 512
    some ("OUT[".toList ++ natChars k ++ "] = 0x".toList ++ hexDigits 16 w.toNat ++ " ; raw=".toList ++
      natChars r.toNat ++ " n=".toList ++ intChars n ++ " value=".toList ++ valueChars n)
  | none => none

/-- R99: the lines that follow the words. -/
def closingChars (count : Nat) (err : Bool) : List (List Char) :=
  ["COUNT = ".toList ++ natChars count, "ERR = ".toList ++ (if err then ['1'] else ['0']), "DONE = 1".toList]

end Sys2Proof.Machine
end

