-- ==== Sys2Proof/Machine/Reference.lean ====
section
/-! DEFINITION. The source's expression `raw / 2^W - 0.5` with each operation carried out in binary64, rounding to
nearest, ties to even (spec `43_convert.md` R177, R178, R182). It shares no definition with `CVT` but the layout of a
word (R95), and serves as an independent reference for it. -/

namespace Sys2Proof.Machine

/-- The binary64 word nearest to `±m / 2^k`, ties to even, for a magnitude in the range of the normal numbers; a zero
magnitude gives the zero of that sign. -/
def roundDyadic (neg : Bool) (m k : Nat) : F64 :=
  if m = 0 then f64Make neg 0 0
  else
    let p := Nat.log2 m
    if p ≤ 52 then f64Make neg (BitVec.ofNat 11 (1023 + p - k)) (BitVec.ofNat 52 ((m - 2 ^ p) * 2 ^ (52 - p)))
    else
      let sh := p - 52
      let q := m / 2 ^ sh
      let rest := m % 2 ^ sh
      let up := decide (2 ^ (sh - 1) < rest) || (decide (rest = 2 ^ (sh - 1)) && q % 2 == 1)
      let q' := if up then q + 1 else q
      if q' = 2 ^ 53 then f64Make neg (BitVec.ofNat 11 (1024 + p - k)) 0
      else f64Make neg (BitVec.ofNat 11 (1023 + p - k)) (BitVec.ofNat 52 (q' - 2 ^ 52))

/-- A zero or a normal word of magnitude below `2^53` as sign, `m` and `k`, for the value `±m / 2^k` (R95). -/
def dyadicOf (w : F64) : Bool × Nat × Nat :=
  let e := (f64Exp w).toNat
  if e = 0 then (f64Sign w, 0, 0) else (f64Sign w, 2 ^ 52 + (f64Frac w).toNat, 1075 - e)

/-- binary64 subtraction of `0.5` from a word of magnitude at most 1: the exact difference, rounded; an exact zero
difference is `+0` (R178). -/
def subHalf (w : F64) : F64 :=
  let (neg, m, k) := dyadicOf w
  let k' := k + 1
  let a : Int := (if neg then -1 else 1) * ((m * 2 : Nat) : Int)
  let d : Int := a - ((2 ^ (k' - 1) : Nat) : Int)
  if d = 0 then f64Make false 0 0 else roundDyadic (decide (d < 0)) d.natAbs k'

/-- R177: the source's `value = raw / 2^W - 0.5` in binary64: the quotient of two binary64 numbers, rounded, minus 0.5,
rounded. -/
def sourceFormula (r : Raw10) : F64 := subHalf (roundDyadic false r.toNat 10)

end Sys2Proof.Machine
end

