-- ==== Sys2Proof/Machine/Transaction.lean ====
section
/-! DEFINITION. The step table of spec `40_decode.md` R118 at the spec's own grain, where a whole `UNITSTEP` (R115) is
one step. The machine of Machine/Cycle.lean takes the operations one by one; the statements say that the two agree. -/

namespace Sys2Proof.Machine

/-- Words stored at `k, k+1, ...` in increasing order (R58). -/
def memWrites (k : Nat) : List F64 → State → State
  | [], s => s
  | v :: vs, s => memWrites (k + 1) vs (memWrite k v s)

/-- R118 `start-ok`: `DECODE` with `PRESENT = 1`, then `SKIP`. -/
def startOk (len : Nat) (s : State) : State :=
  setStage .unit (setPos s.build.fmt.H (enterRun len (clearResults s)))

/-- R118 `start-bad`: `DECODE` with `PRESENT = 0` (R200). What the row does not list is the model's (log 6, log 7). -/
def startBad (s : State) : State := raiseContractViolation (latchAbsent (clearResults s))

/-- R115 `UNITSTEP`: load `U`, all lanes through `UNPACK`, `NORM` and `CVT`, then the `S` words stored in lane order and
`pos <- pos + G`. -/
def unitStep (s : State) : Host.Outcome State Fault Refusal :=
  match memReads s s.pos s.build.fmt.G with
  | .error e => .fault e
  | .ok bytes =>
    let u := joinBytes bytes
    let raws := unpackUnit s.build.fmt u
    let fxs := raws.map normFn
    let words := fxs.map cvtFn
    if s.build.outCap < s.count + s.build.fmt.S then .refused .outputFull
    else
      let t := memWrites s.count words s
      .next { t with
        u := u, raw := raws, fx := fxs, f64 := words,
        count := s.count + s.build.fmt.S, pos := s.pos + s.build.fmt.G, stage := .unit }

/-- R118 `drop` (R117). -/
def dropStep (s : State) : State := signalDone s

/-- R115, R118: how many operations one unit step is: `UNPACK`, then `NORM`, `CVT` and `EMIT` once per lane. -/
def unitOps (f : WireFormat) : Nat := 1 + 3 * f.S

/-- How many of the machine's own steps a transaction with `PRESENT = 1` takes: `DECODE`, `SKIP`, the operations of
`units(LEN)` unit steps, `DROP`. The grain is the model's (log 3); R120 and R241 count `1 + units(LEN) + 1` steps. -/
def transactionOps (f : WireFormat) (len : Nat) : Nat := 2 + unitsOf f len * unitOps f + 1

end Sys2Proof.Machine
end

