-- ==== Sys2Proof/Safety.lean ====
section
/-! DEFINITION. How a run ends (spec `70_reset_and_hazards.md` R242), and the invariants of the machine in the terms the
statements use (`10_state.md` R24, R25, R28, `40_decode.md` R121). -/

namespace Sys2Proof.Machine

/-- R242: a transaction is over exactly when `phase = DONE`. -/
def State.final (s : State) : Prop := s.phase = .done

/-- R242: the faulted outcome. -/
def State.faulted (s : State) : Prop := s.phase = .done ∧ s.err = true

/-- R242: the successful outcome. -/
def State.succeeded (s : State) : Prop := s.phase = .done ∧ s.err = false

/-- `n` steps of the machine, stopping at the first fault or refusal. -/
def runs (n : Nat) (s : State) : Host.Outcome State Fault Refusal := Host.Core.run Sys2Proof.core n s

/-- R119: two states agree on everything that decides the machine's path: the build, the operands, the phase, the
stage, `pos`, the flags and `COUNT`. They may differ in `IN`, `OUT` and every datapath register. -/
structure State.SameControl (s t : State) : Prop where
  build : s.build = t.build
  phase : s.phase = t.phase
  stage : s.stage = t.stage
  pos : s.pos = t.pos
  present : s.present = t.present
  len : s.len = t.len
  done : s.done = t.done
  err : s.err = t.err
  count : s.count = t.count
  host : s.host = t.host

/-- The words of the Trace hold values. -/
def State.traceHeld (s : State) : Prop := ∀ k, k < s.count → (Memory.read s.out k).isSome = true

/-- Where the sequencer stands in the transaction (R118, R121): after `k` complete unit steps `pos = H + k*G` and
`COUNT = k*S`, and inside a unit step `COUNT` has grown by the lanes already emitted. -/
def State.seqOk (s : State) : Prop :=
  match s.stage with
  | .skip => s.count = 0
  | .unit => ∃ k, k ≤ unitsOf s.build.fmt s.len ∧ s.pos = s.build.fmt.H + k * s.build.fmt.G ∧
      s.count = k * s.build.fmt.S
  | .norm j => ∃ k, k < unitsOf s.build.fmt s.len ∧ s.pos = s.build.fmt.H + k * s.build.fmt.G ∧
      s.count = k * s.build.fmt.S ∧ j < s.build.fmt.S
  | .cvt j => ∃ k, k < unitsOf s.build.fmt s.len ∧ s.pos = s.build.fmt.H + k * s.build.fmt.G ∧
      s.count = k * s.build.fmt.S ∧ j < s.build.fmt.S
  | .emit j => ∃ k, k < unitsOf s.build.fmt s.len ∧ s.pos = s.build.fmt.H + k * s.build.fmt.G ∧
      s.count = k * s.build.fmt.S + j ∧ j < s.build.fmt.S

/-- What holds while a transaction runs: the operands are those of an accepted `START` (R22, R112, D18, D28). -/
structure State.RunOk (s : State) : Prop where
  present : s.present = true
  noError : s.err = false
  input : inHolds s.inMem s.len = true
  output : countOf s.build.fmt s.len ≤ s.build.outCap
  seq : s.seqOk

/-- The invariant of the machine. -/
structure State.Inv (s : State) : Prop where
  built : s.build.wf = true
  inWf : Memory.wf s.inMem
  outWf : Memory.wf s.out
  /-- R24: the flag `DONE` is 1 exactly when `phase = DONE`. -/
  doneIff : s.done = true ↔ s.phase = .done
  /-- R28, R200: `ERR` is 1 only after a contract violation, with `COUNT = 0`. -/
  errDone : s.err = true → s.phase = .done ∧ s.count = 0
  idle : s.phase = .idle → s.count = 0
  /-- R113: a transaction that ends without error has produced `count(LEN)` samples. -/
  counted : s.phase = .done → s.err = false → s.count = countOf s.build.fmt s.len
  held : s.traceHeld
  /-- R25: `U` has `8*G` bits and there are `S` registers of each lane file. -/
  uWidth : s.u.width = 8 * s.build.fmt.G
  raws : s.raw.length = s.build.fmt.S
  fxs : s.fx.length = s.build.fmt.S
  f64s : s.f64.length = s.build.fmt.S
  running : s.phase = .run → s.RunOk

/-- What the datapath holds inside a unit step of wire unit `k` (R115, R25: each register is written before it is
read). -/
def State.dataOk (s : State) (k : Nat) : Prop :=
  match s.stage with
  | .skip => True
  | .unit => True
  | .norm j => s.u = unitAt s.build.fmt s.buf k ∧ s.raw = unpackUnit s.build.fmt s.u ∧
      s.fx.take j = (s.raw.map normFn).take j
  | .cvt j => s.u = unitAt s.build.fmt s.buf k ∧ s.raw = unpackUnit s.build.fmt s.u ∧
      s.fx = s.raw.map normFn ∧ s.f64.take j = (s.fx.map cvtFn).take j
  | .emit _ => s.u = unitAt s.build.fmt s.buf k ∧ s.raw = unpackUnit s.build.fmt s.u ∧
      s.fx = s.raw.map normFn ∧ s.f64 = s.fx.map cvtFn

/-- R121: while a transaction runs, `OUT[0..COUNT)` is the first `COUNT` words of `decode(fmt, BUF)`, and the datapath
holds the unit in progress. -/
structure State.TraceInv (s : State) : Prop where
  inv : s.Inv
  emitted : s.phase = .run → s.trace = ((decodeBuf s.build.fmt s.buf).take s.count).map some
  data : s.phase = .run → s.dataOk (s.count / s.build.fmt.S)

end Sys2Proof.Machine
end

