-- ==== Sys2Proof/Certificates/Slice0/Obligations.lean ====
section
/-! DEFINITION. The statements for the provers, each one about the machine or about the function it computes. -/

open Sys2Proof Sys2Proof.Machine

/-! ### Encodings -/

/-- A few words written out from R94, R145 and R146 read as what they stand for. The model's own choices here: `LENW = 23`
is the build of `Config.build` (log 1, DESIGN CHOICE); that `PRESENT` stands above `LEN` in one word, and the refusal of a
word of another width by name, are log 8 (DEDUCED); the decoder's refusal of a lane number at or above `S`, the bound
of R30, is log 14 (DESIGN CHOICE). -/
def Obligations.WrittenWordsDecode : Prop :=
  decode Config.build .start ⟨24, 0x80000C#24⟩ = .ok (.decode true 12) ∧
  decode Config.build .start ⟨24, 0x000005#24⟩ = .ok (.decode false 5) ∧
  decode Config.build .start ⟨25, 0x000005#25⟩ = .error .cmdWidth ∧
  decode Config.build (.norm 4) ⟨0, 0#0⟩ = .error .noSuchLane ∧
  joinBytes [0x87#8, 0x60#8, 0xE8#8, 0xDA#8, 0x16#8] = ⟨40, 0x8760E8DA16#40⟩ ∧
  unpackUnit Config.fmtD40 ⟨40, 0x8760E8DA16#40⟩ = [541#10, 526#10, 566#10, 534#10] ∧
  unpackUnit Config.fmtW32 ⟨32, 0x21B85A36#32⟩ = [566#10, 534#10, 539#10] ∧
  unpackUnit Config.fmtW32 ⟨32, 0xE1B85A36#32⟩ = [566#10, 534#10, 539#10]

/-- Decoding what the encoder writes for a well-formed operation gives the operation back, on every build (R94, R96).
`PRESENT` above `LEN` in one word is log 8 (DEDUCED), the selection of the reference rows log 13 (DEDUCED). -/
def Obligations.DecodeInvertsEncode : Prop :=
  ∀ (b : Build) (i : Instr), i.wf b = true → decode b (encode b i).1 (encode b i).2 = .ok i

/-- R147: `PACK` puts sample bit `r_j[W-1-i]` at position `lane[j][i]` and the status value in the non-lane positions,
most significant position first, and `UNPACK(PACK(r, st)) = r` for every format, all samples and every status value.
Where `st` has more bits than the unit has non-lane positions (`st >= 2^(8*G - 10*S)`), the clause about the status bits
is the model's choice, not R147's: the low bits of `st` are used (log 17, DESIGN CHOICE). -/
def Obligations.UnpackInvertsPack : Prop :=
  ∀ (f : WireFormat) (raws : List Raw10) (st : Nat), f.wf = true → raws.length = f.S →
    (packUnit f raws st).width = 8 * f.G ∧
    (∀ (j i p : Nat) (lane : List Nat), f.lane[j]? = some lane → lane[i]? = some p →
      (packUnit f raws st).bit p = (raws.getD j 0).getLsbD (9 - i)) ∧
    (∀ p, p < 8 * f.G → (∀ lane ∈ f.lane, p ∉ lane) →
      (packUnit f raws st).bit p =
        st.testBit ((List.range p).countP fun q => decide (∀ lane ∈ f.lane, q ∉ lane))) ∧
    unpackUnit f (packUnit f raws st) = raws

/-- R81: the bytes of a unit are the fields `U[8*(G-b)-1 : 8*(G-b)-8]`, and joining them gives the unit back. -/
def Obligations.WireUnitBytes : Prop :=
  (∀ bytes : List Byte, (joinBytes bytes).width = 8 * bytes.length ∧
    ∀ b, b < bytes.length →
      some ((joinBytes bytes).val.extractLsb' (8 * (bytes.length - b) - 8) 8) = bytes[b]?) ∧
  ∀ (g : Nat) (v : BitVec (8 * g)), joinBytes (unitBytes g ⟨8 * g, v⟩) = ⟨8 * g, v⟩

/-- R84: `raw_j[W-1-i] = U[lane[j][i]]` for every lane `j` and `i = 0 .. W-1`. -/
def Obligations.LaneExtraction : Prop :=
  ∀ (f : WireFormat) (u : Bits) (j i : Nat) (lane : List Nat),
    f.wf = true → f.lane[j]? = some lane → i < 10 →
    ∃ r p, (unpackUnit f u)[j]? = some r ∧ lane[i]? = some p ∧ r.getLsbD (9 - i) = u.val.getLsbD p

/-- R141: `uint(r_j)` is the sum of `U[lane[j][i]] * 2^(W-1-i)`. -/
def Obligations.UnpackSum : Prop :=
  ∀ (f : WireFormat) (u : Bits) (j : Nat) (lane : List Nat),
    f.wf = true → f.lane[j]? = some lane →
    ∃ r, (unpackUnit f u)[j]? = some r ∧ r.toNat ≤ 1023 ∧
      r.toNat = ((List.range 10).map fun i => (u.bit (lane.getD i 0)).toNat * 2 ^ (9 - i)).sum

/-- R145: the four samples of `FMT_D40` as fields of `U` and from the five bytes, written out, with its worked example;
`UNPACK` through `lane` gives the same. -/
def Obligations.LayoutD40 : Prop :=
  (∀ u : Bits, unpackD40 u = [u.val.extractLsb' 30 10, u.val.extractLsb' 20 10, u.val.extractLsb' 10 10,
    u.val.extractLsb' 0 10] ∧ unpackUnit Config.fmtD40 u = unpackD40 u) ∧
  (∀ b0 b1 b2 b3 b4 : Byte,
    unpackD40 (joinBytes [b0, b1, b2, b3, b4]) =
      [b0 ++ b1.extractLsb' 6 2, b1.extractLsb' 0 6 ++ b2.extractLsb' 4 4,
       b2.extractLsb' 0 4 ++ b3.extractLsb' 2 6, b3.extractLsb' 0 2 ++ b4]) ∧
  joinBytes [0x87#8, 0x60#8, 0xE8#8, 0xDA#8, 0x16#8] = ⟨40, 0x8760E8DA16#40⟩ ∧
  unpackD40 ⟨40, 0x8760E8DA16#40⟩ = [541#10, 526#10, 566#10, 534#10]

/-- R146: the three samples of `FMT_W32` as fields of `U` and from the four bytes, written out, with its worked
examples, which differ in the two dropped status bits; `UNPACK` through `lane` gives the same. -/
def Obligations.LayoutW32 : Prop :=
  (∀ u : Bits, unpackW32 u = [u.val.extractLsb' 0 10, u.val.extractLsb' 10 10, u.val.extractLsb' 20 10] ∧
    unpackUnit Config.fmtW32 u = unpackW32 u) ∧
  (∀ b0 b1 b2 b3 : Byte,
    unpackW32 (joinBytes [b0, b1, b2, b3]) =
      [b2.extractLsb' 0 2 ++ b3, b1.extractLsb' 0 4 ++ b2.extractLsb' 2 6,
       b0.extractLsb' 0 6 ++ b1.extractLsb' 4 4]) ∧
  joinBytes [0x21#8, 0xB8#8, 0x5A#8, 0x36#8] = ⟨32, 0x21B85A36#32⟩ ∧
  unpackW32 ⟨32, 0x21B85A36#32⟩ = [566#10, 534#10, 539#10] ∧
  unpackW32 (joinBytes [0xE1#8, 0xB8#8, 0x5A#8, 0x36#8]) = [566#10, 534#10, 539#10]

/-! ### The normalizer and the converter -/

/-- R161: `sint_10(NORM(r)) = uint(r) - 512` for every raw sample. -/
def Obligations.NormSubtractsHalfScale : Prop :=
  ∀ r : Raw10, (normFn r).toInt = (r.toNat : Int) - 512

/-- R165: `NORM` is its own inverse, a bijection, and keeps the order. -/
def Obligations.NormBijectiveMonotone : Prop :=
  (∀ r : Raw10, normFn (normFn r) = r) ∧ Function.Bijective normFn ∧
  ∀ r1 r2 : Raw10, r1.toNat < r2.toNat ↔ (normFn r1).toInt < (normFn r2).toInt

/-- R176: the value of `CVT(x)` is `sint_10(x) / 1024`. -/
def Obligations.CvtValue : Prop :=
  ∀ x : Fx10, f64Value (cvtFn x) = some ((x.toInt : Rat) / 1024)

/-- R177: `CVT(NORM(r))` has exactly the value `(r - 512) / 1024`, and it is the same 64 bits as the source's
`raw / 2^W - 0.5` in binary64 with round-to-nearest-even. The rounding is the model's definition of IEEE 754's (log 15,
PRESUMED). -/
def Obligations.SampleWordExact : Prop :=
  ∀ r : Raw10, f64Value (sampleWord r) = some (((r.toNat : Rat) - 512) / 1024) ∧ sampleWord r = sourceFormula r

/-- R178: the one input with value zero gives `+0.0`, and `-0.0` is never produced. -/
def Obligations.ZeroIsPositive : Prop :=
  ∀ x : Fx10, (cvtFn x = 0x0000000000000000#64 ↔ x.toInt = 0) ∧ cvtFn x ≠ 0x8000000000000000#64

/-- R179: apart from `+0`, every result is a normal number with exponent field `1013 .. 1022`; bits 43:0 are zero; and
there are exactly 1024 different words. -/
def Obligations.ResultWordSet : Prop :=
  (∀ x : Fx10, cvtFn x = 0#64 ∨ (1013 ≤ (f64Exp (cvtFn x)).toNat ∧ (f64Exp (cvtFn x)).toNat ≤ 1022)) ∧
  (∀ x : Fx10, (cvtFn x).extractLsb' 0 44 = 0#44) ∧
  ((Finset.univ : Finset Fx10).image cvtFn).card = 1024

/-- R181: `CVT` keeps the order of values, is injective, and `r = v * 1024 + 512` recovers the raw sample. R130: so
`CVT ∘ NORM` is injective too, and the samples are recovered from the Trace. -/
def Obligations.CvtMonotoneInjective : Prop :=
  (∀ (x1 x2 : Fx10) (v1 v2 : Rat), f64Value (cvtFn x1) = some v1 → f64Value (cvtFn x2) = some v2 →
    (x1.toInt < x2.toInt ↔ v1 < v2)) ∧
  Function.Injective cvtFn ∧
  (∀ r1 r2 : Raw10, r1 ≠ r2 → cvtFn (normFn r1) ≠ cvtFn (normFn r2)) ∧
  ∀ r : Raw10, ∃ v : Rat, f64Value (cvtFn (normFn r)) = some v ∧ (r.toNat : Rat) = v * 1024 + 512

/-! ### The function `decode(fmt, BUF)` -/

/-- R111: `units(L) = (L - H - T) div G` when `L >= H + T` and 0 below, `count(L) = S * units(L)`, and
`len(decode(fmt, BUF)) = count(len(BUF))`; with `H = T = 0`, `units(L) = L div G`. -/
def Obligations.DecodeLength : Prop :=
  ∀ (f : WireFormat) (buf : List Byte), f.wf = true →
    (f.H + f.T ≤ buf.length → unitsOf f buf.length = (buf.length - f.H - f.T) / f.G) ∧
    (buf.length < f.H + f.T → unitsOf f buf.length = 0) ∧
    countOf f buf.length = f.S * unitsOf f buf.length ∧
    (f.H = 0 → f.T = 0 → unitsOf f buf.length = buf.length / f.G) ∧
    (decodeBuf f buf).length = countOf f buf.length

/-- R142: output word `k*S + j` is lane `j` of unit `k`. -/
def Obligations.LaneOrderIsTimeOrder : Prop :=
  ∀ (f : WireFormat) (buf : List Byte) (k j : Nat),
    f.wf = true → k < unitsOf f buf.length → j < f.S →
    ∃ r, (unpackUnit f (unitAt f buf k))[j]? = some r ∧ (decodeBuf f buf)[k * f.S + j]? = some (sampleWord r)

/-- R123: a prefix of the buffer gives a prefix of the result. -/
def Obligations.PrefixLaw : Prop :=
  ∀ (f : WireFormat) (p b : List Byte), f.wf = true → p <+: b →
    countOf f p.length ≤ countOf f b.length ∧ decodeBuf f p <+: decodeBuf f b

/-- R124: fewer than `G` appended bytes add at most one unit, and none from a unit boundary; the samples already
produced stay. -/
def Obligations.TruncationLaw : Prop :=
  ∀ (f : WireFormat) (b x : List Byte), f.wf = true → x.length < f.G →
    unitsOf f (b ++ x).length ≤ unitsOf f b.length + 1 ∧
    (b.length ≤ f.H + f.T ∨ (b.length - f.H - f.T) % f.G = 0 →
      countOf f (b ++ x).length = countOf f b.length) ∧
    decodeBuf f b <+: decodeBuf f (b ++ x)

/-- R125: every word is `CVT(NORM(r))` for some raw sample, with the value `(r - 512) / 1024` in the closed range. -/
def Obligations.RangeLaw : Prop :=
  ∀ (f : WireFormat) (buf : List Byte) (w : F64), f.wf = true → w ∈ decodeBuf f buf →
    ∃ (r : Raw10) (v : Rat), w = cvtFn (normFn r) ∧ f64Value w = some v ∧ v = ((r.toNat : Rat) - 512) / 1024 ∧
      -1 / 2 ≤ v ∧ v ≤ 1 / 2 - 1 / 1024

/-- R126: the empty buffer and every buffer shorter than `H + G + T` give the empty result. -/
def Obligations.ShortBufferEmpty : Prop :=
  ∀ f : WireFormat, f.wf = true →
    decodeBuf f [] = [] ∧ ∀ buf : List Byte, buf.length < f.H + f.G + f.T → decodeBuf f buf = []

/-- R127: all-zero bytes give `-0.5` throughout, all-one bytes the maximum throughout, for every format. -/
def Obligations.UniformBuffers : Prop :=
  ∀ (f : WireFormat) (buf : List Byte), f.wf = true →
    ((∀ b ∈ buf, b = 0x00#8) → ∀ w ∈ decodeBuf f buf, w = 0xBFE0000000000000#64) ∧
    ((∀ b ∈ buf, b = 0xFF#8) → ∀ w ∈ decodeBuf f buf, w = 0x3FDFF00000000000#64)

/-- R128: two buffers of one length that agree on the lane bits of the complete units give one result. Bit `p` of
unit `k` is bit `p mod 8` of byte `H + k*G + (G - 1 - p div 8)` (R81). -/
def Obligations.IgnoredBitsIndependence : Prop :=
  ∀ (f : WireFormat) (b b' : List Byte), f.wf = true → b.length = b'.length →
    (∀ k, k < unitsOf f b.length → ∀ lane ∈ f.lane, ∀ p ∈ lane,
      (b.getD (f.H + k * f.G + (f.G - 1 - p / 8)) 0).getLsbD (p % 8) =
      (b'.getD (f.H + k * f.G + (f.G - 1 - p / 8)) 0).getLsbD (p % 8)) →
    decodeBuf f b = decodeBuf f b'

/-- R129: output word `n` depends only on the bits `lane[n mod S]` of unit `n div S`. -/
def Obligations.LocalityLaw : Prop :=
  ∀ (f : WireFormat) (b b' : List Byte) (n : Nat), f.wf = true → b.length = b'.length →
    (∀ p ∈ f.lane.getD (n % f.S) [],
      (b.getD (f.H + n / f.S * f.G + (f.G - 1 - p / 8)) 0).getLsbD (p % 8) =
      (b'.getD (f.H + n / f.S * f.G + (f.G - 1 - p / 8)) 0).getLsbD (p % 8)) →
    (decodeBuf f b)[n]? = (decodeBuf f b')[n]?

/-- R87: among all formats with `G <= 8` and 10-bit samples only `G = 3, S = 2` with `H + T` of 81, 82 or 83 gives 286
samples for 512 bytes, and the two reference formats give 408 and 381. -/
def Obligations.GoldenCountEquation : Prop :=
  (∀ f : WireFormat, f.wf = true → f.G ≤ 8 →
    (countOf f 512 = 286 ↔ f.G = 3 ∧ f.S = 2 ∧ 81 ≤ f.H + f.T ∧ f.H + f.T ≤ 83)) ∧
  countOf Config.fmtD40 512 = 408 ∧ countOf Config.fmtW32 512 = 381

/-- R97, R147, R110: a listing of header, units and an incomplete tail assembles to a buffer whose decoding is the
words of the samples written in it. The trailer is the last `T` bytes. That a listing holds the format itself, and
that an over-long status value uses its low bits, are log 17 (DESIGN CHOICE). -/
def Obligations.ListingDecodes : Prop :=
  ∀ (f : WireFormat) (hdr tail trl : List Byte) (units : List (List Raw10 × Nat)),
    f.wf = true → hdr.length = f.H → trl.length = f.T → tail.length < f.G →
    (∀ x ∈ units, x.1.length = f.S) →
    ∃ bytes, Listing.assemble ⟨f, false,
        [.hdr hdr] ++ units.map (fun x => .unit x.1 x.2) ++ [.raw tail, .trl trl]⟩ = some (true, bytes) ∧
      decodeBuf f bytes = (units.flatMap fun x => x.1).map sampleWord

/-! ### The operations -/

/-- `DECODE` with `PRESENT = 1` outside `phase = RUN`, with the buffer in `IN` and room in `OUT`: `DONE`, `ERR` and
`COUNT` are cleared, the operands latched and `phase = RUN` entered; nothing else changes. The stage is the model's
own field (log 3), and that `pos`, `U`, `RAW`, `FX` and `F64` stay is log 7 (DEDUCED). -/
def Obligations.StartAccepted : Prop :=
  ∀ (s : State) (len : Nat), s.phase ≠ .run → (∀ i, i < len → ∃ b, Memory.read s.inMem i = some b) →
    s.build.fmt.S * unitsOf s.build.fmt len ≤ s.build.outCap →
    exec (.decode true len) s =
      .next { s with done := false, err := false, count := 0, present := true, len := len, phase := .run,
                     stage := .skip }

/-- R200: `START` with `PRESENT = 0` outside `phase = RUN` takes the exception, whatever `LEN` is: `ERR = 1`,
`COUNT = 0`, `phase = DONE`, `DONE = 1`, no byte read and no word written. That no other field changes but the operand
`PRESENT`, of which nothing is said, is partly the model's: `LEN` stays by log 6 (DEDUCED), and `pos`, `U`, `RAW`,
`FX` and `F64`, which U7 leaves open after `start-bad`, stay by log 7 (DEDUCED). That the exception is a next state
and no fault of the model is log 20 (DEDUCED from R200 and R207). -/
def Obligations.ContractViolationEntry : Prop :=
  ∀ (s : State) (len : Nat), s.phase ≠ .run →
    ∃ p, exec (.decode false len) s =
      .next { s with err := true, count := 0, phase := .done, done := true, present := p }

/-- R202: the contract violations the block cannot see are refused: `START` while `phase = RUN`, a buffer that `IN`
does not hold, a result that `OUT` cannot hold; and a host's write to the buffer while `phase = RUN`. R202 lets a
model refuse such a run or have no step for it; that it is refused, at `START` for the two promises about `IN` and
`OUT`, is log 9 (DEDUCED), and that the placing of a whole buffer is such a write is log 10 (DEDUCED). -/
def Obligations.UnseenViolationsRefused : Prop :=
  (∀ (s : State) (p : Bool) (len : Nat), s.phase = .run → exec (.decode p len) s = .refused .startWhileRunning) ∧
  (∀ (s : State) (len i : Nat), s.phase ≠ .run → i < len → Memory.read s.inMem i = none →
    exec (.decode true len) s = .refused .inputTooShort) ∧
  (∀ (s : State) (len : Nat), s.phase ≠ .run → inHolds s.inMem len = true →
    s.build.outCap < countOf s.build.fmt len → exec (.decode true len) s = .refused .outputTooSmall) ∧
  (∀ (s : State) (i : Nat) (b : Byte) (rest : List HostMove), s.build.wf = true → s.phase = .run → i < s.len →
    s.host = .writeIn i b :: rest → step s = .refused .inputWrittenWhileRunning) ∧
  (∀ (s : State) (bytes : List Byte) (rest : List HostMove), s.build.wf = true → s.phase = .run →
    s.host = .place bytes :: rest → step s = .refused .inputWrittenWhileRunning)

/-- R114: `SKIP` is `pos <- H` and nothing else; with `H > LEN` no unit step is enabled after it and the transaction
ends with `COUNT = 0`. That `pos`, `U`, `RAW`, `FX` and `F64` stay in the `DROP` that ends the transaction, which U7
leaves open between transactions, is the model's (log 7, DEDUCED). -/
def Obligations.SkipSetsPos : Prop :=
  ∀ s : State, exec .skip s = .next { s with pos := s.build.fmt.H } ∧
    (s.len < s.build.fmt.H → unitRemains { s with pos := s.build.fmt.H } = false ∧
      (s.phase = .run → s.count = 0 →
        exec .drop { s with pos := s.build.fmt.H } =
          .next { s with pos := s.build.fmt.H, phase := .done, done := true, count := 0 }))

/-- R140: `UNPACK` writes the `S` lane registers `RAW[j]` from the bits of `U` that `lane` names, and nothing else; an
all-zero unit gives 0 and an all-ones unit 1023 in every lane. -/
def Obligations.UnpackWritesLanes : Prop :=
  ∀ s : State, s.build.wf = true → s.u.width = 8 * s.build.fmt.G →
    ∃ rs : List Raw10, exec .unpack s = .next { s with raw := rs } ∧ rs.length = s.build.fmt.S ∧
      (∀ (j i p : Nat) (lane : List Nat), s.build.fmt.lane[j]? = some lane → lane[i]? = some p →
        ∃ r, rs[j]? = some r ∧ r.getLsbD (9 - i) = s.u.val.getLsbD p) ∧
      (s.u.val = 0#s.u.width → ∀ r ∈ rs, r = 0#10) ∧
      (s.u.val = BitVec.allOnes s.u.width → ∀ r ∈ rs, r = 1023#10)

/-- R145, R146: the rows of the two reference formats write `RAW` from the fields of `U` they name and nothing else,
which is what `UNPACK` does there; on a block built for another format they are refused. That refusal is the model's
choice: neither rule says what a reference row does on another format (log 13, DEDUCED). -/
def Obligations.ReferenceRowsComplete : Prop :=
  (∀ s : State, s.build.fmt = Config.fmtD40 →
    exec .unpackD40 s = .next { s with raw := [s.u.val.extractLsb' 30 10, s.u.val.extractLsb' 20 10,
      s.u.val.extractLsb' 10 10, s.u.val.extractLsb' 0 10] } ∧ exec .unpackD40 s = exec .unpack s) ∧
  (∀ s : State, s.build.fmt = Config.fmtW32 →
    exec .unpackW32 s = .next { s with raw := [s.u.val.extractLsb' 0 10, s.u.val.extractLsb' 10 10,
      s.u.val.extractLsb' 20 10] } ∧ exec .unpackW32 s = exec .unpack s) ∧
  (∀ s : State, s.build.fmt ≠ Config.fmtD40 → exec .unpackD40 s = .refused .otherFormat) ∧
  (∀ s : State, s.build.fmt ≠ Config.fmtW32 → exec .unpackW32 s = .refused .otherFormat)

/-- R160: `NORM` for lane `j` inverts bit 9 of `RAW[j]`, keeps bits 8:0, writes the result to `FX[j]`, and nothing
else; its signed value is `uint(RAW[j]) - 512`. -/
def Obligations.NormWritesLane : Prop :=
  ∀ (s : State) (j : Nat) (r : Raw10), s.raw[j]? = some r →
    ∃ x : Fx10, exec (.norm j) s = .next { s with fx := s.fx.set j x } ∧ x = r ^^^ 0b1000000000#10 ∧
      x.toInt = (r.toNat : Int) - 512

/-- R175: `CVT` for lane `j` writes to `F64[j]` the word of sign, exponent `1013 + p` and left-aligned fraction of the
magnitude of `FX[j]`, `p` its leading-one position, or `+0.0`, and nothing else. -/
def Obligations.CvtWritesLane : Prop :=
  ∀ (s : State) (j : Nat) (x : Fx10), s.fx[j]? = some x →
    ∃ w : F64, exec (.cvt j) s = .next { s with f64 := s.f64.set j w } ∧
      (x.toInt = 0 → w = 0#64) ∧
      ∀ p : Nat, 2 ^ p ≤ x.toInt.natAbs → x.toInt.natAbs < 2 ^ (p + 1) →
        f64Sign w = decide (x.toInt < 0) ∧ (f64Exp w).toNat = 1013 + p ∧
        (f64Frac w).toNat = (x.toInt.natAbs - 2 ^ p) * 2 ^ (52 - p)

/-- R116: `EMIT` for lane `j` stores `F64[j]` unchanged at word index `COUNT`, adds 1 to `COUNT`, and changes nothing
else: no other word of `OUT`, no register, no flag. With `COUNT = OUTCAP` the transaction has no meaning. -/
def Obligations.EmitAppends : Prop :=
  (∀ (s : State) (j : Nat) (v : F64), s.f64[j]? = some v → s.count < s.build.outCap →
    ∃ o : Memory 64, exec (.emit j) s = .next { s with out := o, count := s.count + 1 } ∧
      Memory.read o s.count = some v ∧ ∀ k, k ≠ s.count → Memory.read o k = Memory.read s.out k) ∧
  (∀ (s : State) (j : Nat) (v : F64), s.f64[j]? = some v → s.count = s.build.outCap →
    exec (.emit j) s = .refused .outputFull)

/-- R30: lane registers are indexed by `0 <= j < S`. The fault at a register that does not exist is the model's choice
(log 14). -/
def Obligations.AbsentLaneFaults : Prop :=
  ∀ (s : State) (j : Nat),
    (s.raw.length ≤ j → exec (.norm j) s = .fault (.noSuchLane j)) ∧
    (s.fx.length ≤ j → exec (.cvt j) s = .fault (.noSuchLane j)) ∧
    (s.f64.length ≤ j → exec (.emit j) s = .fault (.noSuchLane j))

/-- R117: `DROP`, enabled when `phase = RUN` and `pos + G + T > LEN`, is `phase <- DONE; DONE <- 1` and nothing else;
elsewhere it is refused (log 14). That `pos`, `U`, `RAW`, `FX` and `F64` stay, which U7 leaves open between transactions, is
log 7 (DEDUCED). -/
def Obligations.DropEndsTransaction : Prop :=
  (∀ s : State, s.phase = .run → s.len < s.pos + s.build.fmt.G + s.build.fmt.T →
    exec .drop s = .next { s with phase := .done, done := true }) ∧
  ∀ s : State, s.phase ≠ .run ∨ s.pos + s.build.fmt.G + s.build.fmt.T ≤ s.len →
    exec .drop s = .refused .dropNotEnabled

/-! ### The step -/

/-- A step runs the operation the sequencer selects: after the load of `U` where `UNPACK` is next, `exec` of the
operation, then the sequencer's move to the next one; a stop of `exec` is the step's stop. A move `wait` of the host
leaves the step to the block in the same way. The stages and the grain of the step are the model's own (log 3, DESIGN
CHOICE). So is the host's list of moves (log 2, DESIGN CHOICE). -/
def Obligations.StepRunsSelectedOperation : Prop :=
  ∀ (s s1 : State) (i : Instr), s.build.wf = true → s.phase = .run → s.host = [] →
    decode s.build (selected s) ⟨0, 0#0⟩ = .ok i → fetchOperand i s = .ok s1 →
    (∀ s2, exec i s1 = .next s2 → step s = .next (advance i s2)) ∧
    (∀ e, exec i s1 = .fault e → step s = .fault e) ∧
    (∀ r, exec i s1 = .refused r → step s = .refused r) ∧
    step { s with host := [.wait] } = step s

/-- A step at a `START` runs the `DECODE` its command word stands for. The host's list of moves is the model's (log 2,
DESIGN CHOICE). -/
def Obligations.StepRunsStart : Prop :=
  ∀ (s : State) (cmd : Bits) (rest : List HostMove) (i : Instr), s.build.wf = true → s.host = .start cmd :: rest →
    decode s.build .start cmd = .ok i → step s = exec i { s with host := rest }

/-- R96, R115: what the sequencer selects, and where it goes after each operation: the lanes in their order, `NORM`
after `UNPACK`, `CVT` after `NORM`, `EMIT` after `CVT`, and `pos <- pos + G` after the last `EMIT`. The stages are the model's
own (log 3, DESIGN CHOICE). That the rows of the reference formats are selected in place of `UNPACK` on exactly those
formats is the model's too (log 13, DEDUCED): R96 names `UNPACK` alone there. -/
def Obligations.SequencerOrder : Prop :=
  ∀ s : State,
    (s.stage = .skip → selected s = .skip) ∧
    (s.stage = .unit → s.pos + s.build.fmt.G + s.build.fmt.T ≤ s.len →
      (s.build.fmt = Config.fmtD40 → selected s = .unpackD40) ∧
      (s.build.fmt = Config.fmtW32 → selected s = .unpackW32) ∧
      (s.build.fmt ≠ Config.fmtD40 → s.build.fmt ≠ Config.fmtW32 → selected s = .unpack)) ∧
    (s.stage = .unit → s.len < s.pos + s.build.fmt.G + s.build.fmt.T → selected s = .drop) ∧
    (∀ j, s.stage = .norm j → selected s = .norm j) ∧
    (∀ j, s.stage = .cvt j → selected s = .cvt j) ∧
    (∀ j, s.stage = .emit j → selected s = .emit j) ∧
    advance .skip s = { s with stage := .unit } ∧
    (∀ i, i = .unpack ∨ i = .unpackD40 ∨ i = .unpackW32 → advance i s = { s with stage := .norm 0 }) ∧
    (∀ j, j + 1 < s.build.fmt.S → advance (.norm j) s = { s with stage := .norm (j + 1) } ∧
      advance (.cvt j) s = { s with stage := .cvt (j + 1) } ∧
      advance (.emit j) s = { s with stage := .emit (j + 1) }) ∧
    (∀ j, j + 1 = s.build.fmt.S → advance (.norm j) s = { s with stage := .cvt 0 } ∧
      advance (.cvt j) s = { s with stage := .emit 0 } ∧
      advance (.emit j) s = { s with stage := .unit, pos := s.pos + s.build.fmt.G })

/-- R118: in `phase = IDLE` and `phase = DONE` the block has no step of its own and waits for the host. That the
internal registers stay too, which U7 leaves open between transactions, is log 7 (DEDUCED); an empty list of moves is
a host that waits (log 2, DESIGN CHOICE). -/
def Obligations.WaitsForHost : Prop :=
  ∀ s : State, s.build.wf = true → s.host = [] → s.phase = .idle ∨ s.phase = .done → step s = .next s

/-- R234, R64: the host places a buffer in `IN` outside `phase = RUN`, and writes one byte of `IN` whenever it is not
a byte of the running transaction's buffer; nothing else changes. The model's own here: that a write at index `LEN` or
above while `phase = RUN` succeeds (log 10, DEDUCED from R235, which freezes `IN[0..LEN)` alone; R64 says no claim
covers a host that writes `IN` between `START` and `DONE`), that the host's moves are a list (log 2), and that the
internal registers stay (log 7, DEDUCED). -/
def Obligations.HostWritesInput : Prop :=
  (∀ (s : State) (bytes : List Byte) (rest : List HostMove), s.build.wf = true → s.host = .place bytes :: rest →
    s.phase ≠ .run → ∃ m : Memory 8, step s = .next { s with inMem := m, host := rest } ∧
      ∀ i, Memory.read m i = bytes[i]?) ∧
  (∀ (s : State) (i : Nat) (b : Byte) (rest : List HostMove), s.build.wf = true → s.host = .writeIn i b :: rest →
    s.phase ≠ .run ∨ s.len ≤ i → ∃ m : Memory 8, step s = .next { s with inMem := m, host := rest } ∧
      Memory.read m i = some b ∧ ∀ k, k ≠ i → Memory.read m k = Memory.read s.inMem k)

/-- R62, R236: `DONE` reads at any time; `ERR`, `COUNT` and the words of the Trace read while `DONE = 1`, and are
refused before; a word outside the Trace is refused. A read changes nothing but the host's own list of moves. The
refusals of a word of `OUT` at `COUNT` or above, which R59 says keeps its old bits, and of `ERR` in `IDLE`, are the
model's choice (log 11, DESIGN CHOICE); the host's moves as a list are log 2. -/
def Obligations.HostReadsResults : Prop :=
  ∀ s : State, s.Inv →
    hostRead s .done = .ok (.flag s.done) ∧
    (s.done = true → hostRead s .err = .ok (.flag s.err) ∧ hostRead s .count = .ok (.number s.count) ∧
      (∀ k, k < s.count → ∃ w, hostRead s (.out k) = .ok (.word w) ∧ Memory.read s.out k = some w) ∧
      ∀ k, s.count ≤ k → hostRead s (.out k) = .error .readOutsideTrace) ∧
    (s.done = false → hostRead s .err = .error .readBeforeDone ∧ hostRead s .count = .error .readBeforeDone ∧
      ∀ k, hostRead s (.out k) = .error .readBeforeDone) ∧
    ∀ (r : HostRead) (v : HostValue) (rest : List HostMove), s.host = .read r :: rest → hostRead s r = .ok v →
      step s = .next { s with host := rest }

/-- R230: a reset, at any time, gives `phase = IDLE`, `DONE = 0`, `ERR = 0`, `COUNT = 0`, and does not touch `IN` and
`fmt`. Nothing is said of `pos` and the datapath registers, which become unspecified. That a reset while `phase = RUN`
takes effect, where R231 lets a model take or refuse it, is log 16 (DESIGN CHOICE). -/
def Obligations.ResetMove : Prop :=
  ∀ (s : State) (rest : List HostMove), s.build.wf = true → s.host = .reset :: rest →
    ∃ t, step s = .next t ∧ t.phase = .idle ∧ t.done = false ∧ t.err = false ∧ t.count = 0 ∧
      t.inMem = s.inMem ∧ t.build = s.build

/-! ### Invariants and frames of the machine -/

/-- R33: the state after reset of every block has `phase = IDLE` and `DONE = ERR = COUNT = 0`, and meets both
invariants when its format is well formed. Nothing is said of the registers the spec leaves unspecified. That the
state carries its build is log 1 (DESIGN CHOICE). -/
def Obligations.ResetMeetsInvariants : Prop :=
  ∀ b : Build, (State.resetOf b).phase = .idle ∧ (State.resetOf b).done = false ∧ (State.resetOf b).err = false ∧
    (State.resetOf b).count = 0 ∧ (State.resetOf b).build = b ∧ (b.wf = true → (State.resetOf b).TraceInv)

/-- Every step, with every move of the host, keeps the invariant of the machine. The canonical form of the memories is
log 5, the stages log 3, the reset as a move that is always taken log 16 (each DESIGN CHOICE). -/
def Obligations.StepKeepsInvariant : Prop :=
  ∀ s t : State, s.Inv → step s = .next t → t.Inv

/-- R121: every step keeps `OUT[0..COUNT)` equal to the first `COUNT` words of `decode(fmt, BUF)` while a transaction
runs, with the datapath holding the unit in progress. The stages and the grain of the step are the model's own (log 3,
DESIGN CHOICE). -/
def Obligations.StepKeepsTrace : Prop :=
  ∀ s t : State, s.TraceInv → step s = .next t → t.TraceInv

/-- R24, R27: while a transaction runs and `SKIP` is done, `H <= pos <= max(H, LEN - T)`; the block's own steps never
decrease `pos`. The stage that says `SKIP` is done is the model's (log 3, DESIGN CHOICE). -/
def Obligations.PosBounds : Prop :=
  ∀ s : State, s.Inv → s.phase = .run → s.stage ≠ .skip →
    s.build.fmt.H ≤ s.pos ∧ s.pos ≤ max s.build.fmt.H (s.len - s.build.fmt.T) ∧
    ∀ t, s.host = [] → step s = .next t → s.pos ≤ t.pos

/-- R57: every index of `IN` that a unit step reads lies below `LEN - T`, and reading there gives the buffer's byte. -/
def Obligations.ReadsStayInside : Prop :=
  ∀ s : State, s.Inv → s.phase = .run → unitRemains s = true →
    s.pos + s.build.fmt.G ≤ s.len - s.build.fmt.T ∧
    (∀ i, s.pos ≤ i → i < s.pos + s.build.fmt.G → ∃ b, memRead s i = .ok b ∧ s.buf[i]? = some b) ∧
    ∃ t, loadUnit s = .ok t ∧ t = { s with u := joinBytes ((s.buf.drop s.pos).take s.build.fmt.G) }

/-- R50, R21: no step changes the build; `IN` changes only by the host's own write; and the block's own steps change
neither the operands nor `IN`. That the state carries its build is log 1, and that `PRESENT` and `LEN` stay outside a
transaction too is log 6 (both DESIGN CHOICE). -/
def Obligations.InputReadOnly : Prop :=
  ∀ s t : State, step s = .next t →
    t.build = s.build ∧
    ((∀ bytes rest, s.host ≠ .place bytes :: rest) → (∀ i b rest, s.host ≠ .writeIn i b :: rest) →
      t.inMem = s.inMem) ∧
    (s.host = [] → t.present = s.present ∧ t.len = s.len ∧ t.inMem = s.inMem)

/-- R59, R58: but for a reset, a step writes no word of `OUT` other than the one at index `COUNT`, and that one only
while a transaction runs. -/
def Obligations.OutputFrame : Prop :=
  ∀ s t : State, step s = .next t → (∀ rest, s.host ≠ .reset :: rest) →
    (∀ k, k ≠ s.count → Memory.read t.out k = Memory.read s.out k) ∧ (s.phase ≠ .run → t.out = s.out)

/-- R201: while a transaction runs and the host keeps its duty, no step of the block faults or is refused, whatever
the bytes of the buffer are, and none sets `ERR`. The stages and the grain of the step are the model's own (log 3,
DESIGN CHOICE). -/
def Obligations.NoStopInTransaction : Prop :=
  ∀ s : State, s.Inv → s.phase = .run → s.host = [] → ∃ t, step s = .next t ∧ t.err = false

/-- R119: no data value influences the path of the machine: two states that agree on all that decides it, whatever
their bytes, output words and datapath registers are, step to two states that agree again. What decides
it includes the model's own stage (log 3) and list of moves (log 2). -/
def Obligations.DataNeverSteers : Prop :=
  ∀ s s' : State, s.Inv → s'.Inv → s.SameControl s' → s.host = [] →
    ∃ t t', step s = .next t ∧ step s' = .next t' ∧ t.SameControl t'

/-- R115, R118: the operations of one unit step, taken one by one, end in exactly the state of `UNITSTEP` taken as one
step. The number of operations is the model's grain (log 3, DESIGN CHOICE), and that the datapath registers, local to
a step in R118, hold the last unit's values after it is log 7 (DEDUCED). -/
def Obligations.UnitStepRefined : Prop :=
  ∀ s : State, s.Inv → s.phase = .run → s.stage = .unit → unitRemains s = true → s.host = [] →
    ∃ t, unitStep s = .next t ∧ runs (unitOps s.build.fmt) s = .next t

/-- R118: the steps `start-ok` (two operations, `DECODE` and `SKIP`, log 3), `start-bad` and `drop` of the spec's table,
each as a whole state. What the table's rows do not list is the model's: after `start-bad`, `PRESENT = 0` is latched and
`LEN` stays (log 6, DEDUCED), and `pos` stays; after all three, `U`, `RAW`, `FX` and `F64` stay (log 7, DEDUCED). R118 calls
the datapath registers local to a step, and U7 leaves these registers open between transactions. -/
def Obligations.StartAndDropRefined : Prop :=
  ∀ s : State, s.Inv →
    (∀ len, s.phase ≠ .run → s.host = [.start (encodeCmd s.build.lenW true len)] → len < 2 ^ s.build.lenW →
      inHolds s.inMem len = true → countOf s.build.fmt len ≤ s.build.outCap →
      runs 2 s = .next (startOk len { s with host := [] })) ∧
    (∀ len, s.phase ≠ .run → s.host = [.start (encodeCmd s.build.lenW false len)] →
      runs 1 s = .next (startBad { s with host := [] })) ∧
    (s.phase = .run → s.stage = .unit → unitRemains s = false → s.host = [] → runs 1 s = .next (dropStep s))

/-- R113, R121: from any state outside `phase = RUN`, a `START` with `PRESENT = 1` ends with `DONE = 1`, `ERR = 0`,
`COUNT = count(LEN)` and `OUT[0..COUNT) = decode(fmt, BUF)`, word for word; words at `COUNT` and above and `IN` are as
before. The number of steps is the model's grain (log 3, DESIGN CHOICE). -/
def Obligations.TransactionComputesDecode : Prop :=
  ∀ (s : State) (len : Nat), s.Inv → s.phase ≠ .run →
    s.host = [.start (encodeCmd s.build.lenW true len)] → len < 2 ^ s.build.lenW →
    inHolds s.inMem len = true → countOf s.build.fmt len ≤ s.build.outCap →
    ∃ t, runs (transactionOps s.build.fmt len) s = .next t ∧
      t.phase = .done ∧ t.done = true ∧ t.err = false ∧ t.count = countOf s.build.fmt len ∧
      t.trace = (decodeBuf s.build.fmt (bufOf s.inMem len)).map some ∧
      t.inMem = s.inMem ∧ (∀ k, t.count ≤ k → Memory.read t.out k = Memory.read s.out k)

/-- R113, R207: a `START` with `PRESENT = 0` ends in one step with `DONE = 1`, `ERR = 1`, `COUNT = 0` and no word of
`OUT` written, every time; and the error leaves nothing behind: a next `START` is accepted as if it had not been. The
number of steps is the model's grain (log 3, DESIGN CHOICE); that the violation is a next state is log 20 (DEDUCED). -/
def Obligations.ErrorThenRecovery : Prop :=
  ∀ (s : State) (len len2 : Nat), s.Inv → s.phase ≠ .run →
    s.host = [.start (encodeCmd s.build.lenW false len), .start (encodeCmd s.build.lenW true len2)] →
    len2 < 2 ^ s.build.lenW → inHolds s.inMem len2 = true → countOf s.build.fmt len2 ≤ s.build.outCap →
    ∃ t t2, runs 1 s = .next t ∧ t.faulted ∧ t.done = true ∧ t.count = 0 ∧ t.out = s.out ∧
      runs (1 + transactionOps s.build.fmt len2) s = .next t2 ∧ t2.succeeded ∧
      t2.trace = (decodeBuf s.build.fmt (bufOf s.inMem len2)).map some

/-- R120: every transaction ends, when the host makes no further move. With `PRESENT = 1` the block is at a unit
boundary after `start-ok` and after each of exactly `units(LEN)` unit steps, `pos = H + k*G` after `k` of them;
another unit step is enabled only for `k < units(LEN)`, and then one `drop` ends it. With `PRESENT = 0` the
transaction is over after `start-bad` and the block takes no step. The number `2 + units(LEN)*(1 + 3*S) + 1` of the
machine's own steps, before which the phase is `RUN` and from which on it is `DONE`, is the model's grain (log 3,
DESIGN CHOICE): R120 and R241 count `1 + units(LEN) + 1` steps, `start-ok` being two of the machine's and a unit step
`1 + 3*S`. That the internal registers stay after `start-bad`, which U7 leaves open, is log 7 (DEDUCED). -/
def Obligations.TerminationExact : Prop :=
  ∀ (s : State) (len : Nat), s.Inv → s.phase ≠ .run →
    (s.host = [.start (encodeCmd s.build.lenW true len)] → len < 2 ^ s.build.lenW →
      inHolds s.inMem len = true → countOf s.build.fmt len ≤ s.build.outCap →
      (∀ n, 1 ≤ n → ∃ t, runs n s = .next t ∧ (n < transactionOps s.build.fmt len → t.phase = .run) ∧
        (transactionOps s.build.fmt len ≤ n → t.final)) ∧
      ∀ k, k ≤ unitsOf s.build.fmt len →
        ∃ t, runs (2 + k * unitOps s.build.fmt) s = .next t ∧ t.phase = .run ∧ t.stage = .unit ∧
          t.pos = s.build.fmt.H + k * s.build.fmt.G ∧
          (unitRemains t = true ↔ k < unitsOf s.build.fmt len)) ∧
    (s.host = [.start (encodeCmd s.build.lenW false len)] →
      ∃ t, t.faulted ∧ ∀ n, 1 ≤ n → runs n s = .next t)

/-- R122: two transactions with the same `PRESENT`, `LEN` and `BUF` end with the same `COUNT`, `ERR` and
`OUT[0..COUNT)`, whatever ran before: the two start states share the build, the command and the bytes below `LEN`, and
nothing else. The numbers of steps are the model's grain (log 3, DESIGN CHOICE). -/
def Obligations.HistoryIndependence : Prop :=
  ∀ (s s' : State) (len : Nat), s.Inv → s'.Inv → s.phase ≠ .run → s'.phase ≠ .run → s.build = s'.build →
    (s.host = [.start (encodeCmd s.build.lenW true len)] → s'.host = s.host → len < 2 ^ s.build.lenW →
      inHolds s.inMem len = true → (∀ i, i < len → Memory.read s'.inMem i = Memory.read s.inMem i) →
      countOf s.build.fmt len ≤ s.build.outCap →
      ∃ t t', runs (transactionOps s.build.fmt len) s = .next t ∧
        runs (transactionOps s.build.fmt len) s' = .next t' ∧
        t.phase = .done ∧ t'.phase = .done ∧ t.count = t'.count ∧ t.err = t'.err ∧ t.trace = t'.trace) ∧
    (s.host = [.start (encodeCmd s.build.lenW false len)] → s'.host = s.host →
      ∃ t t', runs 1 s = .next t ∧ runs 1 s' = .next t' ∧
        t.phase = .done ∧ t'.phase = .done ∧ t.count = t'.count ∧ t.err = t'.err ∧ t.trace = t'.trace)

/-- R210: a step of one instance leaves every other instance as it is. Instances as a list of states, of which a step
moves one, are log 18 (DESIGN CHOICE). -/
def Obligations.InstancesShareNothing : Prop :=
  ∀ (fleet fleet' : List State) (k : Nat), fleetStep k fleet = .next fleet' →
    fleet'.length = fleet.length ∧ (∀ j, j ≠ k → fleet'[j]? = fleet[j]?) ∧
    ∀ s, fleet[k]? = some s → ∃ t, step s = .next t ∧ fleet'[k]? = some t
end

