-- ==== Sys2Proof/Laws/Codec.lean ====
section
/-! SUPPORT. The bits of the encodings: what a built vector's bits are, what a well-formed format says, where `PACK`
puts a sample bit, and how the bits of a joined unit come from its bytes. -/

namespace Sys2Proof

theorem Bits.ext_bit {a b : Bits} (hw : a.width = b.width) (h : ∀ i, i < a.width → a.bit i = b.bit i) : a = b := by
  obtain ⟨n, x⟩ := a
  obtain ⟨m, y⟩ := b
  obtain rfl : n = m := hw
  congr 1
  exact BitVec.eq_of_getLsbD_eq fun i hi => h i hi

@[simp] theorem bitsOfFn_getLsbD (n : Nat) (f : Nat → Bool) (i : Nat) :
    (bitsOfFn n f).getLsbD i = (decide (i < n) && f i) := by
  induction n with
  | zero => simp [bitsOfFn]
  | succ n ih =>
    rw [bitsOfFn, BitVec.getLsbD_cons, ih]
    by_cases h : i = n
    · simp [h]
    · by_cases h2 : i < n
      · simp [h, h2, Nat.lt_succ_of_lt h2]
      · simp [h, h2, show ¬ i < n + 1 by omega]

/-- What R82 gives, as facts. -/
theorem WireFormat.wf_facts {f : WireFormat} (h : f.wf = true) :
    f.W = 10 ∧ 1 ≤ f.G ∧ 1 ≤ f.S ∧ f.lane.length = f.S ∧ (∀ l ∈ f.lane, l.length = 10) ∧
      (∀ l ∈ f.lane, ∀ p ∈ l, p < 8 * f.G) ∧ f.lane.flatten.Nodup := by
  simp only [WireFormat.wf, WireFormat.widthOk, WireFormat.sizesOk, WireFormat.shapeOk, WireFormat.rangeOk,
    WireFormat.distinctOk, Bool.and_eq_true, decide_eq_true_eq, beq_iff_eq, List.all_eq_true] at h
  obtain ⟨⟨⟨⟨hW, hG, hS⟩, hl, hs⟩, hr⟩, hd⟩ := h
  exact ⟨hW, hG, hS, hl, fun l m => (hs l m).trans hW, hr, hd⟩

/-- R84 for one lane: bit `9 - i` of the sample is the bit of `U` that the lane's entry `i` names. -/
theorem unpackLane_getLsbD (u : Bits) (l : List Nat) (b : Nat) (hb : b < 10) :
    (unpackLane u l).getLsbD b = u.bit (l.getD (9 - b) 0) := by
  rw [unpackLane, bitsOfFn_getLsbD, decide_eq_true hb, Bool.true_and]

theorem unpackUnit_length (f : WireFormat) (u : Bits) : (unpackUnit f u).length = f.lane.length := by
  simp [unpackUnit]

/-- A lane sees only its own bits of the unit. -/
theorem unpackLane_congr {u v : Bits} {l : List Nat} (hl : l.length = 10) (h : ∀ p ∈ l, u.bit p = v.bit p) :
    unpackLane u l = unpackLane v l := by
  refine BitVec.eq_of_getLsbD_eq fun b hb => ?_
  rw [unpackLane_getLsbD _ _ _ hb, unpackLane_getLsbD _ _ _ hb]
  have hi : 9 - b < l.length := by omega
  rw [List.getD_eq_getElem _ _ hi]
  exact h _ (List.getElem_mem hi)

theorem indexOf?_eq_none {p : Nat} {l : List Nat} (h : p ∉ l) : indexOf? p l = none := by
  induction l with
  | nil => rfl
  | cons q l ih =>
    simp only [List.mem_cons, not_or] at h
    simp [indexOf?, Ne.symm h.1, ih h.2]

theorem indexOf?_getElem {l : List Nat} (hd : l.Nodup) {i : Nat} (hi : i < l.length) :
    indexOf? l[i] l = some i := by
  induction l generalizing i with
  | nil => simp at hi
  | cons q l ih =>
    have hd' := List.nodup_cons.mp hd
    cases i with
    | zero => simp [indexOf?]
    | succ i =>
      have hi' : i < l.length := by simpa using hi
      have hne : q ≠ l[i] := fun h => hd'.1 (h ▸ List.getElem_mem hi')
      simp [indexOf?, hne, ih hd'.2 hi']

/-- `PACK` finds, for a position a lane names, that lane and its place in it. -/
theorem findLane_getElem {ls : List (List Nat)} (hd : ls.flatten.Nodup) {j i : Nat} (hj : j < ls.length)
    (hi : i < ls[j].length) : findLane (ls[j][i]) ls = some (j, i) := by
  induction ls generalizing j with
  | nil => simp at hj
  | cons l ls ih =>
    have hd' := List.nodup_append.mp (by simpa using hd : (l ++ ls.flatten).Nodup)
    cases j with
    | zero => simp [findLane, indexOf?_getElem hd'.1]
    | succ j =>
      have hj' : j < ls.length := by simpa using hj
      have hi' : i < ls[j].length := by simpa using hi
      have hmem : ls[j][i] ∈ ls.flatten :=
        List.mem_flatten.mpr ⟨ls[j], List.getElem_mem hj', List.getElem_mem hi'⟩
      have hno : ls[j][i] ∉ l := fun h => hd'.2.2 _ h _ hmem rfl
      simp [findLane, indexOf?_eq_none hno, ih hd'.2.1 hj' hi']

@[simp] theorem joinBytes_nil : joinBytes [] = ⟨0, 0#0⟩ := rfl

/-- The last byte of a unit is its least significant one (R54). -/
theorem joinBytes_concat (bs : List Byte) (x : Byte) : joinBytes (bs ++ [x]) = joinByte (joinBytes bs) x := by
  simp [joinBytes]

theorem joinBytes_width (bs : List Byte) : (joinBytes bs).width = 8 * bs.length := by
  induction bs using List.reverseRecOn with
  | nil => rfl
  | append_singleton bs x ih =>
    rw [joinBytes_concat]
    simp only [joinByte, ih, List.length_append, List.length_singleton]
    omega

theorem joinByte_bit (u : Bits) (x : Byte) (i : Nat) :
    (joinByte u x).bit i = if i < 8 then x.getLsbD i else u.bit (i - 8) := by
  simp [joinByte, Bits.bit, BitVec.getLsbD_append]

/-- R81: bit `p` of a unit of `n` bytes is bit `p mod 8` of its byte `n - 1 - p div 8`. -/
theorem joinBytes_bit (bs : List Byte) (p : Nat) (hp : p < 8 * bs.length) :
    (joinBytes bs).bit p = (bs.getD (bs.length - 1 - p / 8) 0).getLsbD (p % 8) := by
  induction bs using List.reverseRecOn generalizing p with
  | nil => simp at hp
  | append_singleton bs x ih =>
    rw [joinBytes_concat, joinByte_bit]
    simp only [List.length_append, List.length_singleton] at hp ⊢
    by_cases h : p < 8
    · have h1 : p / 8 = 0 := by omega
      have h2 : p % 8 = p := by omega
      simp [h, h1, h2]
    · have h1 : bs.length + 1 - 1 - p / 8 = bs.length - 1 - (p - 8) / 8 := by omega
      have h2 : p % 8 = (p - 8) % 8 := by omega
      have h3 : bs.length - 1 - (p - 8) / 8 < bs.length := by omega
      rw [if_neg h, ih (p - 8) (by omega), h1, h2, List.getD_append _ _ _ _ h3]

end Sys2Proof
end

