-- ==== Sys2Proof/Laws/State.lean ====
section
/-! SUPPORT. For every named update of the state, what each field holds after it. All true by `rfl`. -/

namespace Sys2Proof.Machine

/-! ### `clearResults` -/

@[simp] theorem clearResults_build (s : State) : (clearResults s).build = s.build := rfl
@[simp] theorem clearResults_phase (s : State) : (clearResults s).phase = s.phase := rfl
@[simp] theorem clearResults_stage (s : State) : (clearResults s).stage = s.stage := rfl
@[simp] theorem clearResults_pos (s : State) : (clearResults s).pos = s.pos := rfl
@[simp] theorem clearResults_present (s : State) : (clearResults s).present = s.present := rfl
@[simp] theorem clearResults_len (s : State) : (clearResults s).len = s.len := rfl
@[simp] theorem clearResults_done (s : State) : (clearResults s).done = false := rfl
@[simp] theorem clearResults_err (s : State) : (clearResults s).err = false := rfl
@[simp] theorem clearResults_count (s : State) : (clearResults s).count = 0 := rfl
@[simp] theorem clearResults_inMem (s : State) : (clearResults s).inMem = s.inMem := rfl
@[simp] theorem clearResults_out (s : State) : (clearResults s).out = s.out := rfl
@[simp] theorem clearResults_u (s : State) : (clearResults s).u = s.u := rfl
@[simp] theorem clearResults_raw (s : State) : (clearResults s).raw = s.raw := rfl
@[simp] theorem clearResults_fx (s : State) : (clearResults s).fx = s.fx := rfl
@[simp] theorem clearResults_f64 (s : State) : (clearResults s).f64 = s.f64 := rfl
@[simp] theorem clearResults_host (s : State) : (clearResults s).host = s.host := rfl
@[simp] theorem clearResults_freeIx (s : State) : (clearResults s).freeIx = s.freeIx := rfl

/-! ### `signalDone` -/

@[simp] theorem signalDone_build (s : State) : (signalDone s).build = s.build := rfl
@[simp] theorem signalDone_phase (s : State) : (signalDone s).phase = .done := rfl
@[simp] theorem signalDone_stage (s : State) : (signalDone s).stage = s.stage := rfl
@[simp] theorem signalDone_pos (s : State) : (signalDone s).pos = s.pos := rfl
@[simp] theorem signalDone_present (s : State) : (signalDone s).present = s.present := rfl
@[simp] theorem signalDone_len (s : State) : (signalDone s).len = s.len := rfl
@[simp] theorem signalDone_done (s : State) : (signalDone s).done = true := rfl
@[simp] theorem signalDone_err (s : State) : (signalDone s).err = s.err := rfl
@[simp] theorem signalDone_count (s : State) : (signalDone s).count = s.count := rfl
@[simp] theorem signalDone_inMem (s : State) : (signalDone s).inMem = s.inMem := rfl
@[simp] theorem signalDone_out (s : State) : (signalDone s).out = s.out := rfl
@[simp] theorem signalDone_u (s : State) : (signalDone s).u = s.u := rfl
@[simp] theorem signalDone_raw (s : State) : (signalDone s).raw = s.raw := rfl
@[simp] theorem signalDone_fx (s : State) : (signalDone s).fx = s.fx := rfl
@[simp] theorem signalDone_f64 (s : State) : (signalDone s).f64 = s.f64 := rfl
@[simp] theorem signalDone_host (s : State) : (signalDone s).host = s.host := rfl
@[simp] theorem signalDone_freeIx (s : State) : (signalDone s).freeIx = s.freeIx := rfl

/-! ### `signalError` -/

@[simp] theorem signalError_build (s : State) : (signalError s).build = s.build := rfl
@[simp] theorem signalError_phase (s : State) : (signalError s).phase = s.phase := rfl
@[simp] theorem signalError_stage (s : State) : (signalError s).stage = s.stage := rfl
@[simp] theorem signalError_pos (s : State) : (signalError s).pos = s.pos := rfl
@[simp] theorem signalError_present (s : State) : (signalError s).present = s.present := rfl
@[simp] theorem signalError_len (s : State) : (signalError s).len = s.len := rfl
@[simp] theorem signalError_done (s : State) : (signalError s).done = s.done := rfl
@[simp] theorem signalError_err (s : State) : (signalError s).err = true := rfl
@[simp] theorem signalError_count (s : State) : (signalError s).count = 0 := rfl
@[simp] theorem signalError_inMem (s : State) : (signalError s).inMem = s.inMem := rfl
@[simp] theorem signalError_out (s : State) : (signalError s).out = s.out := rfl
@[simp] theorem signalError_u (s : State) : (signalError s).u = s.u := rfl
@[simp] theorem signalError_raw (s : State) : (signalError s).raw = s.raw := rfl
@[simp] theorem signalError_fx (s : State) : (signalError s).fx = s.fx := rfl
@[simp] theorem signalError_f64 (s : State) : (signalError s).f64 = s.f64 := rfl
@[simp] theorem signalError_host (s : State) : (signalError s).host = s.host := rfl
@[simp] theorem signalError_freeIx (s : State) : (signalError s).freeIx = s.freeIx := rfl

/-! ### `memWrite` -/

@[simp] theorem memWrite_build (k : Nat) (v : F64) (s : State) : (memWrite k v s).build = s.build := rfl
@[simp] theorem memWrite_phase (k : Nat) (v : F64) (s : State) : (memWrite k v s).phase = s.phase := rfl
@[simp] theorem memWrite_stage (k : Nat) (v : F64) (s : State) : (memWrite k v s).stage = s.stage := rfl
@[simp] theorem memWrite_pos (k : Nat) (v : F64) (s : State) : (memWrite k v s).pos = s.pos := rfl
@[simp] theorem memWrite_present (k : Nat) (v : F64) (s : State) : (memWrite k v s).present = s.present := rfl
@[simp] theorem memWrite_len (k : Nat) (v : F64) (s : State) : (memWrite k v s).len = s.len := rfl
@[simp] theorem memWrite_done (k : Nat) (v : F64) (s : State) : (memWrite k v s).done = s.done := rfl
@[simp] theorem memWrite_err (k : Nat) (v : F64) (s : State) : (memWrite k v s).err = s.err := rfl
@[simp] theorem memWrite_count (k : Nat) (v : F64) (s : State) : (memWrite k v s).count = s.count := rfl
@[simp] theorem memWrite_inMem (k : Nat) (v : F64) (s : State) : (memWrite k v s).inMem = s.inMem := rfl
@[simp] theorem memWrite_out (k : Nat) (v : F64) (s : State) : (memWrite k v s).out = Memory.write s.out k v := rfl
@[simp] theorem memWrite_u (k : Nat) (v : F64) (s : State) : (memWrite k v s).u = s.u := rfl
@[simp] theorem memWrite_raw (k : Nat) (v : F64) (s : State) : (memWrite k v s).raw = s.raw := rfl
@[simp] theorem memWrite_fx (k : Nat) (v : F64) (s : State) : (memWrite k v s).fx = s.fx := rfl
@[simp] theorem memWrite_f64 (k : Nat) (v : F64) (s : State) : (memWrite k v s).f64 = s.f64 := rfl
@[simp] theorem memWrite_host (k : Nat) (v : F64) (s : State) : (memWrite k v s).host = s.host := rfl
@[simp] theorem memWrite_freeIx (k : Nat) (v : F64) (s : State) : (memWrite k v s).freeIx = s.freeIx := rfl

/-! ### `setPos` -/

@[simp] theorem setPos_build (p : Nat) (s : State) : (setPos p s).build = s.build := rfl
@[simp] theorem setPos_phase (p : Nat) (s : State) : (setPos p s).phase = s.phase := rfl
@[simp] theorem setPos_stage (p : Nat) (s : State) : (setPos p s).stage = s.stage := rfl
@[simp] theorem setPos_pos (p : Nat) (s : State) : (setPos p s).pos = p := rfl
@[simp] theorem setPos_present (p : Nat) (s : State) : (setPos p s).present = s.present := rfl
@[simp] theorem setPos_len (p : Nat) (s : State) : (setPos p s).len = s.len := rfl
@[simp] theorem setPos_done (p : Nat) (s : State) : (setPos p s).done = s.done := rfl
@[simp] theorem setPos_err (p : Nat) (s : State) : (setPos p s).err = s.err := rfl
@[simp] theorem setPos_count (p : Nat) (s : State) : (setPos p s).count = s.count := rfl
@[simp] theorem setPos_inMem (p : Nat) (s : State) : (setPos p s).inMem = s.inMem := rfl
@[simp] theorem setPos_out (p : Nat) (s : State) : (setPos p s).out = s.out := rfl
@[simp] theorem setPos_u (p : Nat) (s : State) : (setPos p s).u = s.u := rfl
@[simp] theorem setPos_raw (p : Nat) (s : State) : (setPos p s).raw = s.raw := rfl
@[simp] theorem setPos_fx (p : Nat) (s : State) : (setPos p s).fx = s.fx := rfl
@[simp] theorem setPos_f64 (p : Nat) (s : State) : (setPos p s).f64 = s.f64 := rfl
@[simp] theorem setPos_host (p : Nat) (s : State) : (setPos p s).host = s.host := rfl
@[simp] theorem setPos_freeIx (p : Nat) (s : State) : (setPos p s).freeIx = s.freeIx := rfl

/-! ### `setStage` -/

@[simp] theorem setStage_build (g : Stage) (s : State) : (setStage g s).build = s.build := rfl
@[simp] theorem setStage_phase (g : Stage) (s : State) : (setStage g s).phase = s.phase := rfl
@[simp] theorem setStage_stage (g : Stage) (s : State) : (setStage g s).stage = g := rfl
@[simp] theorem setStage_pos (g : Stage) (s : State) : (setStage g s).pos = s.pos := rfl
@[simp] theorem setStage_present (g : Stage) (s : State) : (setStage g s).present = s.present := rfl
@[simp] theorem setStage_len (g : Stage) (s : State) : (setStage g s).len = s.len := rfl
@[simp] theorem setStage_done (g : Stage) (s : State) : (setStage g s).done = s.done := rfl
@[simp] theorem setStage_err (g : Stage) (s : State) : (setStage g s).err = s.err := rfl
@[simp] theorem setStage_count (g : Stage) (s : State) : (setStage g s).count = s.count := rfl
@[simp] theorem setStage_inMem (g : Stage) (s : State) : (setStage g s).inMem = s.inMem := rfl
@[simp] theorem setStage_out (g : Stage) (s : State) : (setStage g s).out = s.out := rfl
@[simp] theorem setStage_u (g : Stage) (s : State) : (setStage g s).u = s.u := rfl
@[simp] theorem setStage_raw (g : Stage) (s : State) : (setStage g s).raw = s.raw := rfl
@[simp] theorem setStage_fx (g : Stage) (s : State) : (setStage g s).fx = s.fx := rfl
@[simp] theorem setStage_f64 (g : Stage) (s : State) : (setStage g s).f64 = s.f64 := rfl
@[simp] theorem setStage_host (g : Stage) (s : State) : (setStage g s).host = s.host := rfl
@[simp] theorem setStage_freeIx (g : Stage) (s : State) : (setStage g s).freeIx = s.freeIx := rfl

/-! ### `setU` -/

@[simp] theorem setU_build (b : Bits) (s : State) : (setU b s).build = s.build := rfl
@[simp] theorem setU_phase (b : Bits) (s : State) : (setU b s).phase = s.phase := rfl
@[simp] theorem setU_stage (b : Bits) (s : State) : (setU b s).stage = s.stage := rfl
@[simp] theorem setU_pos (b : Bits) (s : State) : (setU b s).pos = s.pos := rfl
@[simp] theorem setU_present (b : Bits) (s : State) : (setU b s).present = s.present := rfl
@[simp] theorem setU_len (b : Bits) (s : State) : (setU b s).len = s.len := rfl
@[simp] theorem setU_done (b : Bits) (s : State) : (setU b s).done = s.done := rfl
@[simp] theorem setU_err (b : Bits) (s : State) : (setU b s).err = s.err := rfl
@[simp] theorem setU_count (b : Bits) (s : State) : (setU b s).count = s.count := rfl
@[simp] theorem setU_inMem (b : Bits) (s : State) : (setU b s).inMem = s.inMem := rfl
@[simp] theorem setU_out (b : Bits) (s : State) : (setU b s).out = s.out := rfl
@[simp] theorem setU_u (b : Bits) (s : State) : (setU b s).u = b := rfl
@[simp] theorem setU_raw (b : Bits) (s : State) : (setU b s).raw = s.raw := rfl
@[simp] theorem setU_fx (b : Bits) (s : State) : (setU b s).fx = s.fx := rfl
@[simp] theorem setU_f64 (b : Bits) (s : State) : (setU b s).f64 = s.f64 := rfl
@[simp] theorem setU_host (b : Bits) (s : State) : (setU b s).host = s.host := rfl
@[simp] theorem setU_freeIx (b : Bits) (s : State) : (setU b s).freeIx = s.freeIx := rfl

/-! ### `setRaws` -/

@[simp] theorem setRaws_build (rs : List Raw10) (s : State) : (setRaws rs s).build = s.build := rfl
@[simp] theorem setRaws_phase (rs : List Raw10) (s : State) : (setRaws rs s).phase = s.phase := rfl
@[simp] theorem setRaws_stage (rs : List Raw10) (s : State) : (setRaws rs s).stage = s.stage := rfl
@[simp] theorem setRaws_pos (rs : List Raw10) (s : State) : (setRaws rs s).pos = s.pos := rfl
@[simp] theorem setRaws_present (rs : List Raw10) (s : State) : (setRaws rs s).present = s.present := rfl
@[simp] theorem setRaws_len (rs : List Raw10) (s : State) : (setRaws rs s).len = s.len := rfl
@[simp] theorem setRaws_done (rs : List Raw10) (s : State) : (setRaws rs s).done = s.done := rfl
@[simp] theorem setRaws_err (rs : List Raw10) (s : State) : (setRaws rs s).err = s.err := rfl
@[simp] theorem setRaws_count (rs : List Raw10) (s : State) : (setRaws rs s).count = s.count := rfl
@[simp] theorem setRaws_inMem (rs : List Raw10) (s : State) : (setRaws rs s).inMem = s.inMem := rfl
@[simp] theorem setRaws_out (rs : List Raw10) (s : State) : (setRaws rs s).out = s.out := rfl
@[simp] theorem setRaws_u (rs : List Raw10) (s : State) : (setRaws rs s).u = s.u := rfl
@[simp] theorem setRaws_raw (rs : List Raw10) (s : State) : (setRaws rs s).raw = rs := rfl
@[simp] theorem setRaws_fx (rs : List Raw10) (s : State) : (setRaws rs s).fx = s.fx := rfl
@[simp] theorem setRaws_f64 (rs : List Raw10) (s : State) : (setRaws rs s).f64 = s.f64 := rfl
@[simp] theorem setRaws_host (rs : List Raw10) (s : State) : (setRaws rs s).host = s.host := rfl
@[simp] theorem setRaws_freeIx (rs : List Raw10) (s : State) : (setRaws rs s).freeIx = s.freeIx := rfl

/-! ### `setFx` -/

@[simp] theorem setFx_build (j : Nat) (x : Fx10) (s : State) : (setFx j x s).build = s.build := rfl
@[simp] theorem setFx_phase (j : Nat) (x : Fx10) (s : State) : (setFx j x s).phase = s.phase := rfl
@[simp] theorem setFx_stage (j : Nat) (x : Fx10) (s : State) : (setFx j x s).stage = s.stage := rfl
@[simp] theorem setFx_pos (j : Nat) (x : Fx10) (s : State) : (setFx j x s).pos = s.pos := rfl
@[simp] theorem setFx_present (j : Nat) (x : Fx10) (s : State) : (setFx j x s).present = s.present := rfl
@[simp] theorem setFx_len (j : Nat) (x : Fx10) (s : State) : (setFx j x s).len = s.len := rfl
@[simp] theorem setFx_done (j : Nat) (x : Fx10) (s : State) : (setFx j x s).done = s.done := rfl
@[simp] theorem setFx_err (j : Nat) (x : Fx10) (s : State) : (setFx j x s).err = s.err := rfl
@[simp] theorem setFx_count (j : Nat) (x : Fx10) (s : State) : (setFx j x s).count = s.count := rfl
@[simp] theorem setFx_inMem (j : Nat) (x : Fx10) (s : State) : (setFx j x s).inMem = s.inMem := rfl
@[simp] theorem setFx_out (j : Nat) (x : Fx10) (s : State) : (setFx j x s).out = s.out := rfl
@[simp] theorem setFx_u (j : Nat) (x : Fx10) (s : State) : (setFx j x s).u = s.u := rfl
@[simp] theorem setFx_raw (j : Nat) (x : Fx10) (s : State) : (setFx j x s).raw = s.raw := rfl
@[simp] theorem setFx_fx (j : Nat) (x : Fx10) (s : State) : (setFx j x s).fx = s.fx.set j x := rfl
@[simp] theorem setFx_f64 (j : Nat) (x : Fx10) (s : State) : (setFx j x s).f64 = s.f64 := rfl
@[simp] theorem setFx_host (j : Nat) (x : Fx10) (s : State) : (setFx j x s).host = s.host := rfl
@[simp] theorem setFx_freeIx (j : Nat) (x : Fx10) (s : State) : (setFx j x s).freeIx = s.freeIx := rfl

/-! ### `setF64` -/

@[simp] theorem setF64_build (j : Nat) (v : F64) (s : State) : (setF64 j v s).build = s.build := rfl
@[simp] theorem setF64_phase (j : Nat) (v : F64) (s : State) : (setF64 j v s).phase = s.phase := rfl
@[simp] theorem setF64_stage (j : Nat) (v : F64) (s : State) : (setF64 j v s).stage = s.stage := rfl
@[simp] theorem setF64_pos (j : Nat) (v : F64) (s : State) : (setF64 j v s).pos = s.pos := rfl
@[simp] theorem setF64_present (j : Nat) (v : F64) (s : State) : (setF64 j v s).present = s.present := rfl
@[simp] theorem setF64_len (j : Nat) (v : F64) (s : State) : (setF64 j v s).len = s.len := rfl
@[simp] theorem setF64_done (j : Nat) (v : F64) (s : State) : (setF64 j v s).done = s.done := rfl
@[simp] theorem setF64_err (j : Nat) (v : F64) (s : State) : (setF64 j v s).err = s.err := rfl
@[simp] theorem setF64_count (j : Nat) (v : F64) (s : State) : (setF64 j v s).count = s.count := rfl
@[simp] theorem setF64_inMem (j : Nat) (v : F64) (s : State) : (setF64 j v s).inMem = s.inMem := rfl
@[simp] theorem setF64_out (j : Nat) (v : F64) (s : State) : (setF64 j v s).out = s.out := rfl
@[simp] theorem setF64_u (j : Nat) (v : F64) (s : State) : (setF64 j v s).u = s.u := rfl
@[simp] theorem setF64_raw (j : Nat) (v : F64) (s : State) : (setF64 j v s).raw = s.raw := rfl
@[simp] theorem setF64_fx (j : Nat) (v : F64) (s : State) : (setF64 j v s).fx = s.fx := rfl
@[simp] theorem setF64_f64 (j : Nat) (v : F64) (s : State) : (setF64 j v s).f64 = s.f64.set j v := rfl
@[simp] theorem setF64_host (j : Nat) (v : F64) (s : State) : (setF64 j v s).host = s.host := rfl
@[simp] theorem setF64_freeIx (j : Nat) (v : F64) (s : State) : (setF64 j v s).freeIx = s.freeIx := rfl

/-! ### `bumpCount` -/

@[simp] theorem bumpCount_build (s : State) : (bumpCount s).build = s.build := rfl
@[simp] theorem bumpCount_phase (s : State) : (bumpCount s).phase = s.phase := rfl
@[simp] theorem bumpCount_stage (s : State) : (bumpCount s).stage = s.stage := rfl
@[simp] theorem bumpCount_pos (s : State) : (bumpCount s).pos = s.pos := rfl
@[simp] theorem bumpCount_present (s : State) : (bumpCount s).present = s.present := rfl
@[simp] theorem bumpCount_len (s : State) : (bumpCount s).len = s.len := rfl
@[simp] theorem bumpCount_done (s : State) : (bumpCount s).done = s.done := rfl
@[simp] theorem bumpCount_err (s : State) : (bumpCount s).err = s.err := rfl
@[simp] theorem bumpCount_count (s : State) : (bumpCount s).count = s.count + 1 := rfl
@[simp] theorem bumpCount_inMem (s : State) : (bumpCount s).inMem = s.inMem := rfl
@[simp] theorem bumpCount_out (s : State) : (bumpCount s).out = s.out := rfl
@[simp] theorem bumpCount_u (s : State) : (bumpCount s).u = s.u := rfl
@[simp] theorem bumpCount_raw (s : State) : (bumpCount s).raw = s.raw := rfl
@[simp] theorem bumpCount_fx (s : State) : (bumpCount s).fx = s.fx := rfl
@[simp] theorem bumpCount_f64 (s : State) : (bumpCount s).f64 = s.f64 := rfl
@[simp] theorem bumpCount_host (s : State) : (bumpCount s).host = s.host := rfl
@[simp] theorem bumpCount_freeIx (s : State) : (bumpCount s).freeIx = s.freeIx := rfl

/-! ### `setIn` -/

@[simp] theorem setIn_build (m : Memory 8) (s : State) : (setIn m s).build = s.build := rfl
@[simp] theorem setIn_phase (m : Memory 8) (s : State) : (setIn m s).phase = s.phase := rfl
@[simp] theorem setIn_stage (m : Memory 8) (s : State) : (setIn m s).stage = s.stage := rfl
@[simp] theorem setIn_pos (m : Memory 8) (s : State) : (setIn m s).pos = s.pos := rfl
@[simp] theorem setIn_present (m : Memory 8) (s : State) : (setIn m s).present = s.present := rfl
@[simp] theorem setIn_len (m : Memory 8) (s : State) : (setIn m s).len = s.len := rfl
@[simp] theorem setIn_done (m : Memory 8) (s : State) : (setIn m s).done = s.done := rfl
@[simp] theorem setIn_err (m : Memory 8) (s : State) : (setIn m s).err = s.err := rfl
@[simp] theorem setIn_count (m : Memory 8) (s : State) : (setIn m s).count = s.count := rfl
@[simp] theorem setIn_inMem (m : Memory 8) (s : State) : (setIn m s).inMem = m := rfl
@[simp] theorem setIn_out (m : Memory 8) (s : State) : (setIn m s).out = s.out := rfl
@[simp] theorem setIn_u (m : Memory 8) (s : State) : (setIn m s).u = s.u := rfl
@[simp] theorem setIn_raw (m : Memory 8) (s : State) : (setIn m s).raw = s.raw := rfl
@[simp] theorem setIn_fx (m : Memory 8) (s : State) : (setIn m s).fx = s.fx := rfl
@[simp] theorem setIn_f64 (m : Memory 8) (s : State) : (setIn m s).f64 = s.f64 := rfl
@[simp] theorem setIn_host (m : Memory 8) (s : State) : (setIn m s).host = s.host := rfl
@[simp] theorem setIn_freeIx (m : Memory 8) (s : State) : (setIn m s).freeIx = s.freeIx := rfl

/-! ### `setHost` -/

@[simp] theorem setHost_build (h : List HostMove) (s : State) : (setHost h s).build = s.build := rfl
@[simp] theorem setHost_phase (h : List HostMove) (s : State) : (setHost h s).phase = s.phase := rfl
@[simp] theorem setHost_stage (h : List HostMove) (s : State) : (setHost h s).stage = s.stage := rfl
@[simp] theorem setHost_pos (h : List HostMove) (s : State) : (setHost h s).pos = s.pos := rfl
@[simp] theorem setHost_present (h : List HostMove) (s : State) : (setHost h s).present = s.present := rfl
@[simp] theorem setHost_len (h : List HostMove) (s : State) : (setHost h s).len = s.len := rfl
@[simp] theorem setHost_done (h : List HostMove) (s : State) : (setHost h s).done = s.done := rfl
@[simp] theorem setHost_err (h : List HostMove) (s : State) : (setHost h s).err = s.err := rfl
@[simp] theorem setHost_count (h : List HostMove) (s : State) : (setHost h s).count = s.count := rfl
@[simp] theorem setHost_inMem (h : List HostMove) (s : State) : (setHost h s).inMem = s.inMem := rfl
@[simp] theorem setHost_out (h : List HostMove) (s : State) : (setHost h s).out = s.out := rfl
@[simp] theorem setHost_u (h : List HostMove) (s : State) : (setHost h s).u = s.u := rfl
@[simp] theorem setHost_raw (h : List HostMove) (s : State) : (setHost h s).raw = s.raw := rfl
@[simp] theorem setHost_fx (h : List HostMove) (s : State) : (setHost h s).fx = s.fx := rfl
@[simp] theorem setHost_f64 (h : List HostMove) (s : State) : (setHost h s).f64 = s.f64 := rfl
@[simp] theorem setHost_host (h : List HostMove) (s : State) : (setHost h s).host = h := rfl
@[simp] theorem setHost_freeIx (h : List HostMove) (s : State) : (setHost h s).freeIx = s.freeIx := rfl

/-! ### `enterRun` -/

@[simp] theorem enterRun_build (n : Nat) (s : State) : (enterRun n s).build = s.build := rfl
@[simp] theorem enterRun_phase (n : Nat) (s : State) : (enterRun n s).phase = .run := rfl
@[simp] theorem enterRun_stage (n : Nat) (s : State) : (enterRun n s).stage = .skip := rfl
@[simp] theorem enterRun_pos (n : Nat) (s : State) : (enterRun n s).pos = s.pos := rfl
@[simp] theorem enterRun_present (n : Nat) (s : State) : (enterRun n s).present = true := rfl
@[simp] theorem enterRun_len (n : Nat) (s : State) : (enterRun n s).len = n := rfl
@[simp] theorem enterRun_done (n : Nat) (s : State) : (enterRun n s).done = s.done := rfl
@[simp] theorem enterRun_err (n : Nat) (s : State) : (enterRun n s).err = s.err := rfl
@[simp] theorem enterRun_count (n : Nat) (s : State) : (enterRun n s).count = s.count := rfl
@[simp] theorem enterRun_inMem (n : Nat) (s : State) : (enterRun n s).inMem = s.inMem := rfl
@[simp] theorem enterRun_out (n : Nat) (s : State) : (enterRun n s).out = s.out := rfl
@[simp] theorem enterRun_u (n : Nat) (s : State) : (enterRun n s).u = s.u := rfl
@[simp] theorem enterRun_raw (n : Nat) (s : State) : (enterRun n s).raw = s.raw := rfl
@[simp] theorem enterRun_fx (n : Nat) (s : State) : (enterRun n s).fx = s.fx := rfl
@[simp] theorem enterRun_f64 (n : Nat) (s : State) : (enterRun n s).f64 = s.f64 := rfl
@[simp] theorem enterRun_host (n : Nat) (s : State) : (enterRun n s).host = s.host := rfl
@[simp] theorem enterRun_freeIx (n : Nat) (s : State) : (enterRun n s).freeIx = s.freeIx := rfl

/-! ### `latchAbsent` -/

@[simp] theorem latchAbsent_build (s : State) : (latchAbsent s).build = s.build := rfl
@[simp] theorem latchAbsent_phase (s : State) : (latchAbsent s).phase = s.phase := rfl
@[simp] theorem latchAbsent_stage (s : State) : (latchAbsent s).stage = s.stage := rfl
@[simp] theorem latchAbsent_pos (s : State) : (latchAbsent s).pos = s.pos := rfl
@[simp] theorem latchAbsent_present (s : State) : (latchAbsent s).present = false := rfl
@[simp] theorem latchAbsent_len (s : State) : (latchAbsent s).len = s.len := rfl
@[simp] theorem latchAbsent_done (s : State) : (latchAbsent s).done = s.done := rfl
@[simp] theorem latchAbsent_err (s : State) : (latchAbsent s).err = s.err := rfl
@[simp] theorem latchAbsent_count (s : State) : (latchAbsent s).count = s.count := rfl
@[simp] theorem latchAbsent_inMem (s : State) : (latchAbsent s).inMem = s.inMem := rfl
@[simp] theorem latchAbsent_out (s : State) : (latchAbsent s).out = s.out := rfl
@[simp] theorem latchAbsent_u (s : State) : (latchAbsent s).u = s.u := rfl
@[simp] theorem latchAbsent_raw (s : State) : (latchAbsent s).raw = s.raw := rfl
@[simp] theorem latchAbsent_fx (s : State) : (latchAbsent s).fx = s.fx := rfl
@[simp] theorem latchAbsent_f64 (s : State) : (latchAbsent s).f64 = s.f64 := rfl
@[simp] theorem latchAbsent_host (s : State) : (latchAbsent s).host = s.host := rfl
@[simp] theorem latchAbsent_freeIx (s : State) : (latchAbsent s).freeIx = s.freeIx := rfl

/-! ### `raiseContractViolation` -/

@[simp] theorem raiseContractViolation_build (s : State) : (raiseContractViolation s).build = s.build := rfl
@[simp] theorem raiseContractViolation_phase (s : State) : (raiseContractViolation s).phase = .done := rfl
@[simp] theorem raiseContractViolation_stage (s : State) : (raiseContractViolation s).stage = s.stage := rfl
@[simp] theorem raiseContractViolation_pos (s : State) : (raiseContractViolation s).pos = s.pos := rfl
@[simp] theorem raiseContractViolation_present (s : State) : (raiseContractViolation s).present = s.present := rfl
@[simp] theorem raiseContractViolation_len (s : State) : (raiseContractViolation s).len = s.len := rfl
@[simp] theorem raiseContractViolation_done (s : State) : (raiseContractViolation s).done = true := rfl
@[simp] theorem raiseContractViolation_err (s : State) : (raiseContractViolation s).err = true := rfl
@[simp] theorem raiseContractViolation_count (s : State) : (raiseContractViolation s).count = 0 := rfl
@[simp] theorem raiseContractViolation_inMem (s : State) : (raiseContractViolation s).inMem = s.inMem := rfl
@[simp] theorem raiseContractViolation_out (s : State) : (raiseContractViolation s).out = s.out := rfl
@[simp] theorem raiseContractViolation_u (s : State) : (raiseContractViolation s).u = s.u := rfl
@[simp] theorem raiseContractViolation_raw (s : State) : (raiseContractViolation s).raw = s.raw := rfl
@[simp] theorem raiseContractViolation_fx (s : State) : (raiseContractViolation s).fx = s.fx := rfl
@[simp] theorem raiseContractViolation_f64 (s : State) : (raiseContractViolation s).f64 = s.f64 := rfl
@[simp] theorem raiseContractViolation_host (s : State) : (raiseContractViolation s).host = s.host := rfl
@[simp] theorem raiseContractViolation_freeIx (s : State) : (raiseContractViolation s).freeIx = s.freeIx := rfl

/-! ### `resetMove` (its free values are left folded) -/

@[simp] theorem resetMove_build (s : State) : (resetMove s).build = s.build := rfl
@[simp] theorem resetMove_phase (s : State) : (resetMove s).phase = .idle := rfl
@[simp] theorem resetMove_stage (s : State) : (resetMove s).stage = .skip := rfl
@[simp] theorem resetMove_present (s : State) : (resetMove s).present = s.present := rfl
@[simp] theorem resetMove_len (s : State) : (resetMove s).len = s.len := rfl
@[simp] theorem resetMove_done (s : State) : (resetMove s).done = false := rfl
@[simp] theorem resetMove_err (s : State) : (resetMove s).err = false := rfl
@[simp] theorem resetMove_count (s : State) : (resetMove s).count = 0 := rfl
@[simp] theorem resetMove_inMem (s : State) : (resetMove s).inMem = s.inMem := rfl
@[simp] theorem resetMove_out (s : State) : (resetMove s).out = [] := rfl
@[simp] theorem resetMove_host (s : State) : (resetMove s).host = s.host := rfl

end Sys2Proof.Machine
end

