-- ==== Sys2Proof/Laws/Memory.lean ====
section
/-! SUPPORT. Memory: a read after a write, the canonical form, and what the reads of a wire unit give. -/

namespace Sys2Proof.Machine

theorem Memory.read_write_same {w : Nat} (m : Memory w) (a : Nat) (v : BitVec w) :
    Memory.read (Memory.write m a v) a = some v := by
  induction m with
  | nil => simp [Memory.write, Memory.read]
  | cons x m ih =>
    obtain ⟨b, y⟩ := x
    simp only [Memory.write]
    split
    · simp [Memory.read]
    · split
      · simp [Memory.read]
      · simp [Memory.read, *]

theorem Memory.read_write_other {w : Nat} (m : Memory w) (a c : Nat) (v : BitVec w) (h : c ≠ a) :
    Memory.read (Memory.write m a v) c = Memory.read m c := by
  induction m with
  | nil => simp [Memory.write, Memory.read, h]
  | cons x m ih =>
    obtain ⟨b, y⟩ := x
    simp only [Memory.write]
    split
    · simp [Memory.read, h]
    · split
      · rename_i hab
        subst hab
        simp [Memory.read, h]
      · simp [Memory.read, ih]

/-- A read after a write, in one equation. -/
theorem Memory.read_write {w : Nat} (m : Memory w) (a c : Nat) (v : BitVec w) :
    Memory.read (Memory.write m a v) c = if c = a then some v else Memory.read m c := by
  by_cases h : c = a
  · subst h
    simp [Memory.read_write_same]
  · simp [h, Memory.read_write_other]

theorem Memory.mem_write {w : Nat} {m : Memory w} {a : Nat} {v : BitVec w} {x : Nat × BitVec w}
    (h : x ∈ Memory.write m a v) : x = (a, v) ∨ x ∈ m := by
  induction m with
  | nil => simpa [Memory.write] using h
  | cons y m ih =>
    obtain ⟨b, z⟩ := y
    simp only [Memory.write] at h
    split at h
    · simpa using h
    · split at h
      · rcases List.mem_cons.mp h with h | h
        · exact .inl h
        · exact .inr (List.mem_cons_of_mem _ h)
      · rcases List.mem_cons.mp h with h | h
        · exact .inr (h ▸ List.mem_cons_self)
        · exact (ih h).imp id (List.mem_cons_of_mem _)

/-- A write keeps the canonical form. -/
theorem Memory.wf_write {w : Nat} {m : Memory w} (a : Nat) (v : BitVec w) (h : Memory.wf m) :
    Memory.wf (Memory.write m a v) := by
  induction m with
  | nil => simp [Memory.write, Memory.wf]
  | cons y m ih =>
    obtain ⟨b, z⟩ := y
    have h' := List.pairwise_cons.mp h
    simp only [Memory.write]
    split
    · rename_i hab
      refine List.pairwise_cons.mpr ⟨fun x hx => ?_, h⟩
      rcases List.mem_cons.mp hx with rfl | hx
      · exact hab
      · exact Nat.lt_trans hab (h'.1 x hx)
    · split
      · rename_i hab
        subst hab
        exact List.pairwise_cons.mpr ⟨h'.1, h'.2⟩
      · refine List.pairwise_cons.mpr ⟨fun x hx => ?_, ih h'.2⟩
        rcases Memory.mem_write hx with rfl | hx
        · simp only
          omega
        · exact h'.1 x hx

theorem Memory.le_of_mem_fromList {w : Nat} {a : Nat} {vs : List (BitVec w)} {x : Nat × BitVec w}
    (h : x ∈ Memory.fromList a vs) : a ≤ x.1 := by
  induction vs generalizing a with
  | nil => simp [Memory.fromList] at h
  | cons v vs ih =>
    rcases List.mem_cons.mp h with rfl | h
    · exact Nat.le_refl a
    · exact Nat.le_trans (Nat.le_succ a) (ih h)

/-- A placed buffer is in canonical form. -/
theorem Memory.wf_fromList {w : Nat} (a : Nat) (vs : List (BitVec w)) : Memory.wf (Memory.fromList a vs) := by
  induction vs generalizing a with
  | nil => simp [Memory.fromList, Memory.wf]
  | cons v vs ih =>
    exact List.pairwise_cons.mpr ⟨fun x hx => Memory.le_of_mem_fromList hx, ih (a + 1)⟩

/-- What a placed buffer reads as. -/
theorem Memory.read_fromList {w : Nat} (a : Nat) (vs : List (BitVec w)) (c : Nat) :
    Memory.read (Memory.fromList a vs) c = if c < a then none else vs[c - a]? := by
  induction vs generalizing a with
  | nil => simp [Memory.fromList, Memory.read]
  | cons v vs ih =>
    simp only [Memory.fromList, Memory.read, ih]
    by_cases h : c = a
    · simp [h]
    · by_cases h2 : c < a
      · simp [h, h2, Nat.lt_succ_of_lt h2]
      · have : c - a = (c - (a + 1)) + 1 := by omega
        simp [h, h2, this, show ¬ c < a + 1 by omega]

/-- The reset memories are in canonical form. -/
theorem Memory.wf_reset (b : Build) :
    Memory.wf (State.resetOf b).inMem ∧ Memory.wf (State.resetOf b).out := by
  simp [State.resetOf, Memory.wf]

theorem inHolds_iff (m : Memory 8) (n : Nat) :
    inHolds m n = true ↔ ∀ i, i < n → ∃ b, Memory.read m i = some b := by
  simp [inHolds, Option.isSome_iff_exists]

@[simp] theorem buf_length (s : State) : s.buf.length = s.len := by simp [State.buf, bufOf]

@[simp] theorem trace_length (s : State) : s.trace.length = s.count := by simp [State.trace]

theorem buf_getElem? (s : State) {i : Nat} (h : i < s.len) :
    s.buf[i]? = some ((Memory.read s.inMem i).getD 0) := by
  simp [State.buf, bufOf, h]

/-- R57: a read inside the buffer gives the buffer's byte. -/
theorem memRead_of_lt {s : State} {i : Nat} (hin : inHolds s.inMem s.len = true) (h : i < s.len) :
    memRead s i = .ok (s.buf[i]?.getD 0) := by
  obtain ⟨b, hb⟩ := (inHolds_iff _ _).mp hin i h
  rw [buf_getElem? s h]
  simp [memRead, h, hb]

theorem memRead_ok {s : State} {i : Nat} {b : Byte} (h : memRead s i = .ok b) :
    i < s.len ∧ Memory.read s.inMem i = some b := by
  unfold memRead at h
  split at h
  · split at h
    · exact ⟨‹_›, by simp_all⟩
    · cases h
  · cases h

/-- Reads inside the buffer give its bytes, in order (R61). -/
theorem memReads_of_le {s : State} (hin : inHolds s.inMem s.len = true) (n p : Nat) (h : p + n ≤ s.len) :
    memReads s p n = .ok ((s.buf.drop p).take n) := by
  induction n generalizing p with
  | zero => simp [memReads]
  | succ n ih =>
    have hp : p < s.buf.length := by
      rw [buf_length]
      omega
    rw [memReads, memRead_of_lt hin (by omega), ih (p + 1) (by omega)]
    rw [List.drop_eq_getElem_cons hp, List.take_succ_cons, List.getElem?_eq_getElem hp]
    rfl

/-- What the load of a wire unit does, if it does not fault: it writes `U`, from bytes below `LEN`. -/
theorem loadUnit_ok {s t : State} (h : loadUnit s = .ok t) :
    ∃ bs, memReads s s.pos s.build.fmt.G = .ok bs ∧ t = setU (joinBytes bs) s := by
  unfold loadUnit at h
  split at h
  · rename_i bs hbs
    exact ⟨bs, hbs, by cases h; rfl⟩
  · cases h

theorem memReads_length {s : State} {n p : Nat} {bs : List Byte} (h : memReads s p n = .ok bs) :
    bs.length = n := by
  induction n generalizing p bs with
  | zero =>
    simp only [memReads] at h
    cases h
    rfl
  | succ n ih =>
    simp only [memReads] at h
    split at h
    · split at h
      · rename_i hbs
        cases h
        simp [ih hbs]
      · cases h
    · cases h

theorem readLane_ok {w : Nat} {regs : List (BitVec w)} {j : Nat} {v : BitVec w} :
    readLane regs j = .ok v ↔ regs[j]? = some v := by
  unfold readLane
  split <;> simp_all

end Sys2Proof.Machine
end

