-- ==== Sys2Proof/Laws/Units.lean ====
section
/-! SUPPORT. The framing arithmetic of R83 and R111: which wire units a buffer of a given length holds, and the shape
of `decode(fmt, BUF)`. -/

namespace Sys2Proof.Machine

/-- R111, R115: unit `k` is complete exactly when it ends before the trailer. -/
theorem lt_unitsOf_iff {f : WireFormat} (hG : 1 ≤ f.G) (l k : Nat) :
    k < unitsOf f l ↔ f.H + k * f.G + f.G + f.T ≤ l := by
  unfold unitsOf
  have hle : k < (l - f.H - f.T) / f.G ↔ (k + 1) * f.G ≤ l - f.H - f.T := by
    rw [Nat.lt_iff_add_one_le, Nat.le_div_iff_mul_le (by omega)]
  have hmul : (k + 1) * f.G = k * f.G + f.G := by ring
  rw [hmul] at hle
  split
  · rw [hle]
    omega
  · constructor
    · intro h
      omega
    · intro h
      have : 0 ≤ k * f.G := Nat.zero_le _
      omega

/-- The units of a buffer are those that end before its trailer, and no more. -/
theorem unitsOf_mul_le {f : WireFormat} {l : Nat} (h : 1 ≤ unitsOf f l) :
    f.H + unitsOf f l * f.G + f.T ≤ l := by
  unfold unitsOf at h ⊢
  split
  · have := Nat.div_mul_le_self (l - f.H - f.T) f.G
    omega
  · simp_all

theorem unitsOf_mono (f : WireFormat) {l m : Nat} (h : l ≤ m) : unitsOf f l ≤ unitsOf f m := by
  unfold unitsOf
  split
  · rw [if_pos (by omega)]
    exact Nat.div_le_div_right (by omega)
  · exact Nat.zero_le _

theorem unitWords_length (f : WireFormat) (buf : List Byte) (k : Nat) :
    (unitWords f buf k).length = f.lane.length := by
  simp [unitWords, unpackUnit]

/-- The first `n` units' words. -/
theorem flatMap_range_length {α : Type} (g : Nat → List α) (c n : Nat) (h : ∀ k, (g k).length = c) :
    ((List.range n).flatMap g).length = n * c := by
  induction n with
  | zero => simp
  | succ n ih =>
    rw [List.range_succ, List.flatMap_append, List.length_append, ih]
    simp [h]
    ring

/-- The first `k*c` elements of a list of `n` blocks of length `c` are the first `k` blocks. -/
theorem flatMap_range_take {α : Type} (g : Nat → List α) (c n k : Nat) (h : ∀ k, (g k).length = c) (hk : k ≤ n) :
    ((List.range n).flatMap g).take (k * c) = (List.range k).flatMap g := by
  induction n with
  | zero =>
    obtain rfl : k = 0 := by omega
    simp
  | succ n ih =>
    have hlen := flatMap_range_length g c n h
    rw [List.range_succ, List.flatMap_append]
    by_cases hkn : k ≤ n
    · rw [List.take_append_of_le_length (by rw [hlen]; exact Nat.mul_le_mul_right c hkn), ih hkn]
    · obtain rfl : k = n + 1 := by omega
      rw [List.take_of_length_le (by rw [List.length_append, hlen]; simp [h]; ring_nf; omega), List.range_succ,
        List.flatMap_append]

/-- Element `k*c + j` of a list of blocks of length `c` is element `j` of block `k`. -/
theorem flatMap_range_getElem? {α : Type} (g : Nat → List α) (c n k j : Nat) (h : ∀ k, (g k).length = c)
    (hk : k < n) (hj : j < c) : ((List.range n).flatMap g)[k * c + j]? = (g k)[j]? := by
  have hlt : k * c + j < (k + 1) * c := by
    have : (k + 1) * c = k * c + c := by ring
    omega
  have h1 := flatMap_range_take g c n (k + 1) h hk
  have h2 : ((List.range n).flatMap g)[k * c + j]? = ((List.range (k + 1)).flatMap g)[k * c + j]? := by
    rw [← h1, List.getElem?_take_of_lt hlt]
  rw [h2, List.range_succ, List.flatMap_append, List.getElem?_append_right
    (by rw [flatMap_range_length g c k h]; omega), flatMap_range_length g c k h]
  simp

/-- Bit `p` of wire unit `k`, from the byte that holds it (R81, R83). -/
theorem unitAt_bit {f : WireFormat} {buf : List Byte} {k : Nat} (hk : f.H + k * f.G + f.G ≤ buf.length) (p : Nat)
    (hp : p < 8 * f.G) :
    (unitAt f buf k).bit p = (buf.getD (f.H + k * f.G + (f.G - 1 - p / 8)) 0).getLsbD (p % 8) := by
  have hlen : ((buf.drop (f.H + k * f.G)).take f.G).length = f.G := by
    simp only [List.length_take, List.length_drop]
    omega
  have hlt : f.G - 1 - p / 8 < f.G := by omega
  rw [unitAt, joinBytes_bit _ _ (by rw [hlen]; exact hp), hlen]
  congr 1
  simp [List.getD_eq_getElem?_getD, List.getElem?_take_of_lt hlt]

theorem unitAt_width {f : WireFormat} {buf : List Byte} {k : Nat} (hk : f.H + k * f.G + f.G ≤ buf.length) :
    (unitAt f buf k).width = 8 * f.G := by
  rw [unitAt, joinBytes_width]
  simp only [List.length_take, List.length_drop]
  omega

end Sys2Proof.Machine
end

