-- ==== Sys2Proof/Laws/Exec.lean ====
section
/-! SUPPORT. Once for each meaning and each layer of the step: if it answers a next state, then what that state is. -/

namespace Sys2Proof.Machine

/-! ### The meanings -/

theorem execDecode_next {p : Bool} {len : Nat} {s t : State} (h : execDecode p len s = .next t) :
    s.phase ≠ .run ∧
      ((p = false ∧ t = raiseContractViolation (latchAbsent (clearResults s))) ∨
       (p = true ∧ inHolds s.inMem len = true ∧ countOf s.build.fmt len ≤ s.build.outCap ∧
         t = enterRun len (clearResults s))) := by
  unfold execDecode at h
  split at h
  · cases h
  · rename_i hrun
    refine ⟨hrun, ?_⟩
    split at h
    · cases h
      exact .inl ⟨‹_›, rfl⟩
    · split at h
      · cases h
      · split at h
        · cases h
        · cases h
          exact .inr ⟨by simp_all, by simp_all, by omega, rfl⟩

theorem execSkip_next {s t : State} (h : execSkip s = .next t) : t = setPos s.build.fmt.H s := by
  cases h
  rfl

theorem execUnpack_next {s t : State} (h : execUnpack s = .next t) : t = setRaws (unpackUnit s.build.fmt s.u) s := by
  cases h
  rfl

theorem execUnpackD40_next {s t : State} (h : execUnpackD40 s = .next t) :
    s.build.fmt = Config.fmtD40 ∧ t = setRaws (unpackD40 s.u) s := by
  unfold execUnpackD40 at h
  split at h
  · cases h
    exact ⟨‹_›, rfl⟩
  · cases h

theorem execUnpackW32_next {s t : State} (h : execUnpackW32 s = .next t) :
    s.build.fmt = Config.fmtW32 ∧ t = setRaws (unpackW32 s.u) s := by
  unfold execUnpackW32 at h
  split at h
  · cases h
    exact ⟨‹_›, rfl⟩
  · cases h

theorem execNorm_next {j : Nat} {s t : State} (h : execNorm j s = .next t) :
    ∃ r, s.raw[j]? = some r ∧ t = setFx j (normFn r) s := by
  unfold execNorm at h
  split at h
  · cases h
  · rename_i r hr
    cases h
    exact ⟨r, readLane_ok.mp hr, rfl⟩

theorem execCvt_next {j : Nat} {s t : State} (h : execCvt j s = .next t) :
    ∃ x, s.fx[j]? = some x ∧ t = setF64 j (cvtFn x) s := by
  unfold execCvt at h
  split at h
  · cases h
  · rename_i x hx
    cases h
    exact ⟨x, readLane_ok.mp hx, rfl⟩

theorem execEmit_next {j : Nat} {s t : State} (h : execEmit j s = .next t) :
    ∃ v, s.f64[j]? = some v ∧ s.count < s.build.outCap ∧ t = bumpCount (memWrite s.count v s) := by
  unfold execEmit at h
  split at h
  · cases h
  · rename_i v hv
    split at h
    · cases h
    · cases h
      exact ⟨v, readLane_ok.mp hv, by omega, rfl⟩

theorem execDrop_next {s t : State} (h : execDrop s = .next t) :
    s.phase = .run ∧ unitRemains s = false ∧ t = signalDone s := by
  unfold execDrop at h
  split at h
  · rename_i hc
    cases h
    exact ⟨hc.1, hc.2, rfl⟩
  · cases h

/-! ### The layers of the step -/

theorem runOp_next {i : Instr} {s t : State} (h : runOp i s = .next t) :
    ∃ s1 s2, fetchOperand i s = .ok s1 ∧ exec i s1 = .next s2 ∧ t = advance i s2 := by
  unfold runOp at h
  split at h
  · cases h
  · rename_i s1 h1
    split at h
    · rename_i s2 h2
      cases h
      exact ⟨s1, s2, h1, h2, rfl⟩
    · cases h
    · cases h

theorem runOp_of {i : Instr} {s s1 s2 : State} (h1 : fetchOperand i s = .ok s1) (h2 : exec i s1 = .next s2) :
    runOp i s = .next (advance i s2) := by
  simp [runOp, h1, h2]

theorem blockStep_next {s t : State} (h : blockStep s = .next t) :
    (s.phase ≠ .run ∧ t = s) ∨
    (s.phase = .run ∧ ∃ i, decode s.build (selected s) ⟨0, 0#0⟩ = .ok i ∧ runOp i s = .next t) := by
  unfold blockStep at h
  split at h
  · cases h
    exact .inl ⟨by simp_all, rfl⟩
  · cases h
    exact .inl ⟨by simp_all, rfl⟩
  · split at h
    · rename_i hi
      exact .inr ⟨by assumption, _, hi, h⟩
    · cases h

theorem decode_start {b : Build} {cmd : Bits} {i : Instr} (h : decode b .start cmd = .ok i) :
    ∃ p len, i = .decode p len := by
  simp only [decode] at h
  split at h
  · cases h
    exact ⟨_, _, rfl⟩
  · cases h

/-- A `START` runs `DECODE` with nothing before and nothing after it. -/
theorem runOp_decode (p : Bool) (len : Nat) (s : State) : runOp (.decode p len) s = execDecode p len s := by
  simp only [runOp, fetchOperand, exec, advance]
  cases execDecode p len s <;> rfl

theorem hostMove_next {m : HostMove} {s t : State} (h : hostMove m s = .next t) :
    (m = .wait ∧ blockStep s = .next t) ∨
    (∃ cmd p len, m = .start cmd ∧ decode s.build .start cmd = .ok (.decode p len) ∧
      execDecode p len s = .next t) ∨
    (m = .reset ∧ t = resetMove s) ∨
    (∃ bytes, m = .place bytes ∧ s.phase ≠ .run ∧ t = setIn (Memory.fromList 0 bytes) s) ∨
    (∃ i b, m = .writeIn i b ∧ mayWriteIn s i = true ∧ t = setIn (Memory.write s.inMem i b) s) ∨
    (∃ r, m = .read r ∧ t = s) := by
  cases m with
  | wait => exact .inl ⟨rfl, h⟩
  | start cmd =>
    simp only [hostMove] at h
    split at h
    · rename_i i hi
      obtain ⟨p, len, rfl⟩ := decode_start hi
      rw [runOp_decode] at h
      exact .inr (.inl ⟨cmd, p, len, rfl, hi, h⟩)
    · cases h
  | reset =>
    cases h
    exact .inr (.inr (.inl ⟨rfl, rfl⟩))
  | place bytes =>
    simp only [hostMove] at h
    split at h
    · cases h
    · cases h
      exact .inr (.inr (.inr (.inl ⟨bytes, rfl, ‹_›, rfl⟩)))
  | writeIn i b =>
    simp only [hostMove] at h
    split at h
    · cases h
      exact .inr (.inr (.inr (.inr (.inl ⟨i, b, rfl, ‹_›, rfl⟩))))
    · cases h
  | read r =>
    simp only [hostMove] at h
    split at h
    · cases h
      exact .inr (.inr (.inr (.inr (.inr ⟨r, rfl, rfl⟩))))
    · cases h

/-- What one step can do: the block's own step, or the first of the host's moves. -/
theorem step_next {s t : State} (h : step s = .next t) :
    s.build.wf = true ∧
      ((s.host = [] ∧ blockStep s = .next t) ∨
       ∃ m rest, s.host = m :: rest ∧ hostMove m (setHost rest s) = .next t) := by
  unfold step at h
  split at h
  · refine ⟨‹_›, ?_⟩
    unfold cycle at h
    split at h
    · exact .inl ⟨‹_›, h⟩
    · exact .inr ⟨_, _, ‹_›, h⟩
  · cases h

theorem step_of_block {s : State} (hb : s.build.wf = true) (hh : s.host = []) : step s = blockStep s := by
  simp [step, hb, cycle, hh]

theorem step_of_host {s : State} {m : HostMove} {rest : List HostMove} (hb : s.build.wf = true)
    (hh : s.host = m :: rest) : step s = hostMove m (setHost rest s) := by
  simp [step, hb, cycle, hh]

theorem mayWriteIn_iff (s : State) (i : Nat) : mayWriteIn s i = true ↔ s.phase ≠ .run ∨ s.len ≤ i := by
  simp only [mayWriteIn, Bool.not_eq_true', Bool.and_eq_false_iff, beq_eq_false_iff_ne, decide_eq_false_iff_not,
    Nat.not_lt]

/-! ### Runs -/

@[simp] theorem runs_zero (s : State) : runs 0 s = .next s := rfl

theorem coreRun_next (M : Host.Core) {n : Nat} {s t : M.State} (h : M.step s = .next t) :
    M.run (n + 1) s = M.run n t := by
  simp [Host.Core.run, h]

theorem coreRun_fault (M : Host.Core) {n : Nat} {s : M.State} {e : M.Fault} (h : M.step s = .fault e) :
    M.run (n + 1) s = .fault e := by
  simp [Host.Core.run, h]

theorem coreRun_refused (M : Host.Core) {n : Nat} {s : M.State} {r : M.Refusal} (h : M.step s = .refused r) :
    M.run (n + 1) s = .refused r := by
  simp [Host.Core.run, h]

theorem runs_succ (n : Nat) (s : State) :
    runs (n + 1) s =
      match step s with
      | .next t => runs n t
      | .fault e => .fault e
      | .refused r => .refused r := by
  cases h : step s with
  | next t => exact coreRun_next Sys2Proof.core h
  | fault e => exact coreRun_fault Sys2Proof.core h
  | refused r => exact coreRun_refused Sys2Proof.core h

theorem runs_step {n : Nat} {s t : State} (h : step s = .next t) : runs (n + 1) s = runs n t := by
  rw [runs_succ, h]

/-- Runs put end to end. -/
theorem runs_add {m n : Nat} {s t : State} (h : runs m s = .next t) : runs (m + n) s = runs n t := by
  induction m generalizing s with
  | zero =>
    simp only [runs_zero] at h
    cases h
    simp
  | succ m ih =>
    rw [runs_succ] at h
    rw [show m + 1 + n = (m + n) + 1 by omega, runs_succ]
    split at h
    · exact ih h
    · cases h
    · cases h

/-- An invariant that every step keeps holds after every run. -/
theorem runs_induction {P : State → Prop} (hstep : ∀ s t, P s → step s = .next t → P t) {n : Nat} {s t : State}
    (hs : P s) (h : runs n s = .next t) : P t := by
  induction n generalizing s with
  | zero =>
    simp only [runs_zero] at h
    cases h
    exact hs
  | succ n ih =>
    rw [runs_succ] at h
    split at h
    · exact ih (hstep _ _ hs ‹_›) h
    · cases h
    · cases h

/-- R115: what `unitRemains` says. -/
theorem unitRemains_iff (s : State) :
    unitRemains s = true ↔ s.pos + s.build.fmt.G + s.build.fmt.T ≤ s.len := by
  simp [unitRemains]

end Sys2Proof.Machine
end

