-- ==== Sys2Proof/Laws/PerInstr.lean ====
section
/-! SUPPORT. For every operation: what the decoder reads from its selection is a well-formed operation of that
selection (spec `30_encoding.md` R96). One lemma per constructor. -/

namespace Sys2Proof.Laws.DecodeWellFormed

def Statement (i : Instr) : Prop :=
  ∀ (b : Build) (w : Bits) (k : Instr), decode b i.selection w = .ok k →
    k.wf b = true ∧ k.selection = i.selection

theorem decode (present : Bool) (len : Nat) : Statement (.decode present len) := by
  intro b w k h
  simp only [Instr.selection, Sys2Proof.decode] at h
  split at h
  · cases h
    simp [Instr.wf, Instr.selection, cmdLen, Nat.mod_lt]
  · cases h

theorem skip : Statement .skip := by
  intro b w k h
  cases h
  exact ⟨rfl, rfl⟩

theorem unpack : Statement .unpack := by
  intro b w k h
  cases h
  exact ⟨rfl, rfl⟩

theorem unpackD40 : Statement .unpackD40 := by
  intro b w k h
  simp only [Instr.selection, Sys2Proof.decode] at h
  split at h
  · cases h
    simp [Instr.wf, Instr.selection, *]
  · cases h

theorem unpackW32 : Statement .unpackW32 := by
  intro b w k h
  simp only [Instr.selection, Sys2Proof.decode] at h
  split at h
  · cases h
    simp [Instr.wf, Instr.selection, *]
  · cases h

theorem norm (lane : Nat) : Statement (.norm lane) := by
  intro b w k h
  simp only [Instr.selection, Sys2Proof.decode] at h
  split at h
  · cases h
    simp [Instr.wf, Instr.selection, *]
  · cases h

theorem cvt (lane : Nat) : Statement (.cvt lane) := by
  intro b w k h
  simp only [Instr.selection, Sys2Proof.decode] at h
  split at h
  · cases h
    simp [Instr.wf, Instr.selection, *]
  · cases h

theorem emit (lane : Nat) : Statement (.emit lane) := by
  intro b w k h
  simp only [Instr.selection, Sys2Proof.decode] at h
  split at h
  · cases h
    simp [Instr.wf, Instr.selection, *]
  · cases h

theorem drop : Statement .drop := by
  intro b w k h
  cases h
  exact ⟨rfl, rfl⟩

end Sys2Proof.Laws.DecodeWellFormed
end

