-- ==== Sys2Proof/Tests/Slice0.lean ====
section
/-! SUPPORT. Tests: the ill-formed terms that each check of WellFormed refuses, words written out from the spec's
encodings, one or two small theorems per operation with results from spec/95_test_vectors.md, and for every statement
with hypotheses a concrete state and operands that meet them. -/

namespace Sys2Proof.Tests
open Sys2Proof.Machine

/-! ### WellFormed: one ill-formed term per check -/

/-- `95_test_vectors.md` 2.3: the ad-hoc format `LE16`. -/
def fmtLE16 : WireFormat :=
  { W := 10, G := 2, S := 1, H := 2, T := 1, lane := [[1, 0, 15, 14, 13, 12, 11, 10, 9, 8]] }

theorem test_reference_formats_wf :
    Config.fmtD40.wf = true ∧ Config.fmtW32.wf = true ∧ fmtLE16.wf = true := by decide
theorem test_wf_width : { fmtLE16 with W := 12 }.widthOk = false ∧ { fmtLE16 with W := 12 }.wf = false := by decide
theorem test_wf_sizes : { fmtLE16 with S := 0, lane := [] }.sizesOk = false ∧
    { fmtLE16 with S := 0, lane := [] }.wf = false := by decide
theorem test_wf_group : { fmtLE16 with G := 0 }.sizesOk = false := by decide
theorem test_wf_lane_count : { fmtLE16 with S := 2 }.shapeOk = false ∧ { fmtLE16 with S := 2 }.wf = false := by decide
theorem test_wf_lane_length : { fmtLE16 with lane := [[0, 1, 2]] }.shapeOk = false := by decide
theorem test_wf_range : { fmtLE16 with lane := [Config.slice 16 10] }.rangeOk = false ∧
    { fmtLE16 with lane := [Config.slice 16 10] }.wf = false := by decide
theorem test_wf_distinct : { fmtLE16 with lane := [[1, 1, 15, 14, 13, 12, 11, 10, 9, 8]] }.distinctOk = false ∧
    { fmtLE16 with lane := [[1, 1, 15, 14, 13, 12, 11, 10, 9, 8]] }.wf = false := by decide
theorem test_wf_build : ({ Config.build with fmt := { fmtLE16 with W := 12 } } : Build).wf = false := by decide
theorem test_wf_instr_lane : (Instr.norm 4).wf Config.build = false ∧ (Instr.cvt 4).wf Config.build = false ∧
    (Instr.emit 4).wf Config.build = false := by decide
theorem test_wf_instr_len : (Instr.decode true 8388608).wf Config.build = false := by decide
theorem test_wf_instr_row : Instr.unpackW32.wf Config.build = false ∧
    Instr.unpackD40.wf { Config.build with fmt := fmtLE16 } = false := by decide

/-! ### Words written out from the encodings -/

/-- R94: pattern `p` then `LENW = 23` characters `l`. -/
theorem test_decode_cmd : decode Config.build .start ⟨24, 0b100000000000000000001100#24⟩ = .ok (.decode true 12) := rfl
theorem test_decode_cmd_absent :
    decode Config.build .start ⟨24, 0b000000000000000000000101#24⟩ = .ok (.decode false 5) := rfl
theorem test_encode_cmd : encodeCmd 23 true 12 = ⟨24, 0b100000000000000000001100#24⟩ := by decide
theorem test_decode_cmd_width : decode Config.build .start ⟨8, 0#8⟩ = .error .cmdWidth := rfl
theorem test_decode_selections :
    decode Config.build .skip ⟨0, 0#0⟩ = .ok .skip ∧ decode Config.build .unpack ⟨0, 0#0⟩ = .ok .unpack ∧
    decode Config.build .drop ⟨0, 0#0⟩ = .ok .drop ∧ decode Config.build (.norm 3) ⟨0, 0#0⟩ = .ok (.norm 3) ∧
    decode Config.build (.cvt 3) ⟨0, 0#0⟩ = .ok (.cvt 3) ∧ decode Config.build (.emit 3) ⟨0, 0#0⟩ = .ok (.emit 3) :=
  ⟨rfl, rfl, rfl, rfl, rfl, rfl⟩
theorem test_decode_rows : decode Config.build .unpackD40 ⟨0, 0#0⟩ = .ok .unpackD40 ∧
    decode { Config.build with fmt := Config.fmtW32 } .unpackW32 ⟨0, 0#0⟩ = .ok .unpackW32 ∧
    decode Config.build .unpackW32 ⟨0, 0#0⟩ = .error .otherFormat := ⟨rfl, rfl, rfl⟩
theorem test_decode_no_lane : decode Config.build (.emit 4) ⟨0, 0#0⟩ = .error .noSuchLane := rfl
theorem test_table_words : decodeTableWord 0 0 = some .skip ∧ decodeTableWord 16 7 = some (.norm 0) ∧
    decodeTableWord 24 5 = some (.decode false 5) ∧ decodeTableWord 32 7 = some .unpackW32 ∧
    decodeTableWord 40 7 = some .unpackD40 ∧ decodeTableWord 64 7 = some (.emit 0) ∧
    decodeTableWord 7 0 = none := by decide
/-- R88: 40 characters `aaaaaaaaaabbbbbbbbbbccccccccccdddddddddd`. -/
theorem test_unpack_d40_pattern : unpackUnit Config.fmtD40
    ⟨40, 0b0000000001000000001000000000110000000100#40⟩ = [1, 2, 3, 4] := by decide
/-- R89: 32 characters `ttccccccccccbbbbbbbbbbaaaaaaaaaa`. -/
theorem test_unpack_w32_pattern : unpackUnit Config.fmtW32
    ⟨32, 0b11000000001100000000100000000001#32⟩ = [1, 2, 3] := by decide
/-- 2.3: only `U[1]` set. -/
theorem test_unpack_le16 : unpackUnit fmtLE16 (joinBytes [0x00, 0x02]) = [512] := by decide
theorem test_pack_le16 : unitBytes 2 (packUnit fmtLE16 [512] 0x15) = [0x00, 0x56] := by decide
theorem test_pack_w32 : unitBytes 4 (packUnit Config.fmtW32 [1, 2, 3] 1) = [0x40, 0x30, 0x08, 0x01] := by decide
theorem test_f64_fields : f64Make true 0x3FE 0 = 0xBFE0000000000000#64 ∧
    f64Sign 0xBFE0000000000000#64 = true ∧ f64Exp 0x3FDFF00000000000#64 = 0x3FD#11 ∧
    f64Frac 0x3FDFF00000000000#64 = 0xFF00000000000#52 := by decide

/-! ### States -/

/-- A field of the next state, if there is one. -/
def after {α : Type} (o : Host.Outcome State Fault Refusal) (f : State → α) : Option α :=
  match o with
  | .next s => some (f s)
  | .fault _ => none
  | .refused _ => none

/-- After reset, `FMT_D40`. -/
def s0 : State := State.resetOf Config.build

/-- The unit of `95_test_vectors.md` program P1. -/
def bytes5 : List Byte := [0x00, 0x3F, 0xF8, 0x02, 0x1F]

/-- `IN` holds the unit, nothing started. -/
def sIn : State := setIn (Memory.fromList 0 bytes5) s0

/-- The host starts the transaction. -/
def sStart : State := setHost [.start (encodeCmd 23 true 5)] sIn

/-- A transaction over the unit, at a stage, with the datapath as it stands after the load of the unit. -/
def sRun (g : Stage) : State :=
  { sIn with
    phase := .run, stage := g, present := true, len := 5,
    u := ⟨40, 0x003FF8021F#40⟩, raw := [0, 1023, 512, 543], fx := [0x200, 0x1FF, 0x000, 0x01F],
    f64 := [0xBFE0000000000000, 0x3FDFF00000000000, 0x0000000000000000, 0x3F9F000000000000] }

/-- The same block built with another format, after reset. -/
def sFmt (f : WireFormat) : State := State.resetOf { Config.build with fmt := f }

/-! ### The operations (results from spec/95_test_vectors.md) -/

theorem test_norm : normFn 543 = 0x01F ∧ normFn 341 = 0x355 := by decide
theorem test_cvt : cvtFn 0x01F = 0x3F9F000000000000 ∧ cvtFn 0x200 = 0xBFE0000000000000 ∧ cvtFn 0 = 0 ∧
    cvtFn 0x301 = 0xBFCFE00000000000 := by decide
theorem test_source_formula : sourceFormula 543 = 0x3F9F000000000000 ∧ sourceFormula 512 = 0 ∧
    sourceFormula 0 = 0xBFE0000000000000 := by decide
theorem test_units : unitsOf fmtLE16 7 = 2 ∧ unitsOf fmtLE16 4 = 0 ∧ countOf Config.fmtW32 513 = 384 := by decide
/-- Program P3c. -/
theorem test_decodeBuf_w32 : decodeBuf Config.fmtW32 [0xAC, 0x01, 0x02, 0x03, 0x04] =
    [0x3FD0400000000000, 0xBFD8000000000000, 0xBFDF000000000000] := by decide
/-- Section 5.3, last row. -/
theorem test_decodeBuf_le16 : decodeBuf fmtLE16 [0x00, 0x00, 0x1F, 0x02, 0x77, 0x11, 0x22] =
    [0x3F9F000000000000, 0xBFC1200000000000] := by decide
theorem test_start_ok : after (step sStart) (fun t => (t.phase, t.len, t.count, t.done)) =
    some (.run, 5, 0, false) := by decide
theorem test_start_bad : after (step (setHost [.start (encodeCmd 23 false 5)] sIn))
    (fun t => (t.phase, t.err, t.done, t.count)) = some (.done, true, true, 0) := by decide
theorem test_skip_w32 : after (exec .skip (sFmt Config.fmtW32)) (·.pos) = some 1 := by decide
theorem test_unpack_step : after (step { sRun .unit with raw := [0, 0, 0, 0] }) (fun t => (t.raw, t.stage)) =
    some ([0, 1023, 512, 543], .norm 0) := by decide
theorem test_unpackD40_exec : after (exec .unpackD40 { s0 with u := ⟨40, 0x8760E8DA16#40⟩ }) (·.raw) =
    some [541, 526, 566, 534] := by decide
theorem test_unpackW32_exec : after (exec .unpackW32 { sFmt Config.fmtW32 with u := ⟨32, 0xE1B85A36#32⟩ }) (·.raw) =
    some [566, 534, 539] := by decide
theorem test_norm_step : after (step { sRun (.norm 3) with fx := [0, 0, 0, 0] }) (fun t => (t.fx, t.stage)) =
    some ([0, 0, 0, 0x01F], .cvt 0) := by decide
theorem test_cvt_step : after (step { sRun (.cvt 1) with f64 := [0, 0, 0, 0] }) (fun t => (t.f64, t.stage)) =
    some ([0, 0x3FDFF00000000000, 0, 0], .cvt 2) := by decide
theorem test_emit_step : after (step { sRun (.emit 3) with count := 3 }) (fun t => (t.out, t.count, t.pos, t.stage)) =
    some ([(3, 0x3F9F000000000000)], 4, 5, .unit) := by decide
theorem test_drop_step : after (step { sRun .unit with pos := 5, count := 4 }) (fun t => (t.phase, t.done, t.err)) =
    some (.done, true, false) := by decide
theorem test_reset_step : after (step (setHost [.reset] (sRun (.norm 1)))) (fun t => (t.phase, t.count, t.len)) =
    some (.idle, 0, 5) := by decide
theorem test_read_count : hostRead { sRun .unit with phase := .done, done := true, count := 4 } .count =
    .ok (.number 4) ∧ hostRead (sRun .unit) .count = .error .readBeforeDone := ⟨rfl, rfl⟩
/-- Program P6 in the text form of R97. -/
theorem test_listing_p6 : Listing.assemble ⟨fmtLE16, false, [.hdr [0x5A, 0xA5], .unit [543] 0x3F, .unit [0] 0,
    .unit [1023] 0, .unit [512] 0x15, .trl [0xEE]]⟩ =
    some (true, [0x5A, 0xA5, 0x1F, 0xFE, 0x00, 0x00, 0xFF, 0x03, 0x00, 0x56, 0xEE]) := by decide
theorem test_placed_words_run :
    after (step (State.reset.withFetchWord 40 7)) (·.raw) = some [0, 0, 0, 7] ∧
    after (step (State.reset.withFetchWord 32 7)) (·.raw) = some [7, 0, 0] ∧
    after (step (State.reset.withFetchWord 16 512)) (·.fx) = some [0, 0, 0, 0] ∧
    after (step (State.reset.withFetchWord 64 9)) (·.out) = some [(0, 9)] ∧
    after (step (State.reset.withFetchWord 24 5)) (·.err) = some true ∧
    after (step (State.reset.withFetchWord 0 0)) (·.stage) = some .unit := by decide

/-! ### The hypotheses of the statements are met

Each theorem names the statement it is for and shows a state and operands that meet its hypotheses together, at the
boundary values of its clauses. -/

/-- The invariant of a machine that waits, from its parts. -/
theorem inv_waiting (f : WireFormat) (m : Memory 8) (h : List HostMove) (hf : f.wf = true) (hm : Memory.wf m) :
    (setHost h (setIn m (sFmt f))).Inv := by
  constructor <;> simp [sFmt, State.resetOf, Build.wf, State.traceHeld, hf, Memory.wf]
  exact hm

theorem test_inv_sIn : sIn.Inv :=
  inv_waiting Config.fmtD40 (Memory.fromList 0 bytes5) [] (by decide) (by decide)

theorem test_inv_sStart : sStart.Inv :=
  inv_waiting Config.fmtD40 (Memory.fromList 0 bytes5) [.start (encodeCmd 23 true 5)] (by decide) (by decide)

theorem inv_running (g : Stage) (h : (sRun g).seqOk) : (sRun g).Inv := by
  refine ⟨(by decide : Config.build.wf = true), (by decide : Memory.wf (Memory.fromList 0 bytes5)),
    by simp [sRun, sIn, s0, State.resetOf, Memory.wf],
    by simp [sRun, sIn, s0, State.resetOf], by simp [sRun, sIn, s0, State.resetOf], by simp [sRun],
    by simp [sRun], ?_, rfl, rfl, rfl, rfl, ?_⟩
  · intro k hk
    exact absurd hk (Nat.not_lt_zero k)
  · intro _
    exact ⟨rfl, rfl, (by decide : inHolds (Memory.fromList 0 bytes5) 5 = true),
      (by decide : countOf Config.fmtD40 5 ≤ 8388608), h⟩

theorem test_inv_unit : (sRun .unit).Inv := inv_running _ ⟨0, by decide, rfl, rfl⟩
theorem test_inv_norm : (sRun (.norm 3)).Inv := inv_running _ ⟨0, by decide, rfl, rfl, by decide⟩
theorem test_inv_cvt : (sRun (.cvt 0)).Inv := inv_running _ ⟨0, by decide, rfl, rfl, by decide⟩
theorem test_inv_emit : (sRun (.emit 0)).Inv := inv_running _ ⟨0, by decide, rfl, rfl, by decide⟩

/-- A block at the end of a transaction with four words of Trace. -/
def sDone : State :=
  { sRun .unit with
    phase := .done, done := true, pos := 5, count := 4,
    out := Memory.fromList 0 [0xBFE0000000000000, 0x3FDFF00000000000, 0x0000000000000000, 0x3F9F000000000000] }

theorem test_inv_done : sDone.Inv := by
  refine ⟨by decide, (by decide : Memory.wf (Memory.fromList 0 bytes5)),
    (by decide : Memory.wf (Memory.fromList 0 [0xBFE0000000000000#64, 0x3FDFF00000000000#64, 0#64, 0x3F9F000000000000#64])),
    by simp [sDone], by simp [sDone, sRun, sIn, s0, State.resetOf], by simp [sDone],
    fun _ _ => (by decide : 4 = countOf Config.fmtD40 5), ?_, rfl, rfl, rfl, rfl, by simp [sDone]⟩
  exact (by decide : ∀ k, k < 4 → (Memory.read (Memory.fromList 0
    [0xBFE0000000000000#64, 0x3FDFF00000000000#64, 0#64, 0x3F9F000000000000#64]) k).isSome = true)

/-- A transaction with all of the unit's words emitted but the last two stages left: `DROP` is next. -/
def sEnd : State :=
  { sRun .unit with
    pos := 5, count := 4,
    out := Memory.fromList 0 [0xBFE0000000000000, 0x3FDFF00000000000, 0x0000000000000000, 0x3F9F000000000000] }

theorem test_inv_end : sEnd.Inv := by
  refine ⟨by decide, (by decide : Memory.wf (Memory.fromList 0 bytes5)),
    (by decide : Memory.wf (Memory.fromList 0 [0xBFE0000000000000#64, 0x3FDFF00000000000#64, 0#64, 0x3F9F000000000000#64])),
    by simp [sEnd, sRun, sIn, s0, State.resetOf], by simp [sEnd, sRun, sIn, s0, State.resetOf], by simp [sEnd, sRun],
    by simp [sEnd, sRun], ?_, rfl, rfl, rfl, rfl, ?_⟩
  · exact (by decide : ∀ k, k < 4 → (Memory.read (Memory.fromList 0
      [0xBFE0000000000000#64, 0x3FDFF00000000000#64, 0#64, 0x3F9F000000000000#64]) k).isSome = true)
  · intro _
    exact ⟨rfl, rfl, (by decide : inHolds (Memory.fromList 0 bytes5) 5 = true),
      (by decide : countOf Config.fmtD40 5 ≤ 8388608), ⟨1, by decide, rfl, rfl⟩⟩

theorem test_met_DecodeInvertsEncode : (Instr.decode true 8388607).wf Config.build = true ∧
    (Instr.norm 3).wf Config.build = true ∧ Instr.unpackD40.wf Config.build = true ∧
    Instr.unpackW32.wf { Config.build with fmt := Config.fmtW32 } = true := by decide
theorem test_met_UnpackInvertsPack : fmtLE16.wf = true ∧ [543#10].length = fmtLE16.S ∧ 15 < 8 * fmtLE16.G ∧
    fmtLE16.lane[0]? = some [1, 0, 15, 14, 13, 12, 11, 10, 9, 8] ∧ (∀ lane ∈ fmtLE16.lane, 7 ∉ lane) := by decide
theorem test_met_WireUnitBytes : 4 < bytes5.length ∧ 0 < bytes5.length := by decide
theorem test_met_LaneExtraction : fmtLE16.wf = true ∧
    fmtLE16.lane[0]? = some [1, 0, 15, 14, 13, 12, 11, 10, 9, 8] ∧ 9 < 10 := by decide
theorem test_met_UnpackSum : Config.fmtW32.wf = true ∧ Config.fmtW32.lane[2]? = some (Config.slice 29 10) := by decide
theorem test_met_NormBijectiveMonotone : (511#10).toNat < (512#10).toNat := by decide
theorem test_met_CvtMonotoneInjective : (0#10).toInt < (1#10).toInt ∧ (0#10 : Raw10) ≠ 1#10 ∧
    f64Value (cvtFn 0) = some 0 ∧ (f64Value (cvtFn 1)).isSome = true := by decide
theorem test_met_DecodeLength : fmtLE16.wf = true ∧ fmtLE16.H + fmtLE16.T ≤ ([0, 0, 0] : List Byte).length ∧
    ([0, 0] : List Byte).length < fmtLE16.H + fmtLE16.T ∧ Config.fmtD40.H = 0 ∧ Config.fmtD40.T = 0 := by decide
theorem test_met_LaneOrder : Config.fmtD40.wf = true ∧ 1 < unitsOf Config.fmtD40 (bytes5 ++ bytes5).length ∧
    3 < Config.fmtD40.S := by decide
theorem test_met_PrefixLaw : Config.fmtD40.wf = true ∧ bytes5 <+: bytes5 ++ bytes5 := by decide
theorem test_met_TruncationLaw : Config.fmtD40.wf = true ∧ [0xFF#8, 0xFF#8, 0xFF#8, 0xFF#8].length < Config.fmtD40.G ∧
    (bytes5.length - Config.fmtD40.H - Config.fmtD40.T) % Config.fmtD40.G = 0 ∧
    ([0xAC#8] : List Byte).length ≤ Config.fmtW32.H + Config.fmtW32.T := by decide
theorem test_met_RangeLaw : Config.fmtD40.wf = true ∧ 0xBFE0000000000000#64 ∈ decodeBuf Config.fmtD40 bytes5 := by decide
theorem test_met_ShortBufferEmpty : fmtLE16.wf = true ∧
    ([0, 0, 0, 0] : List Byte).length < fmtLE16.H + fmtLE16.G + fmtLE16.T := by decide
theorem test_met_UniformBuffers : Config.fmtD40.wf = true ∧
    (∀ b ∈ List.replicate 5 0x00#8, b = 0x00#8) ∧ (∀ b ∈ List.replicate 5 0xFF#8, b = 0xFF#8) := by decide
/-- `95_test_vectors.md` 5.5: header and status bits changed. -/
theorem test_met_IgnoredBits :
    ([0xAC, 0x20, 0xE8, 0x76, 0x1F] : List Byte).length = ([0x00, 0xE0, 0xE8, 0x76, 0x1F] : List Byte).length ∧
    ∀ k, k < unitsOf Config.fmtW32 5 → ∀ lane ∈ Config.fmtW32.lane, ∀ p ∈ lane,
      (([0xAC, 0x20, 0xE8, 0x76, 0x1F] : List Byte).getD (1 + k * 4 + (4 - 1 - p / 8)) 0).getLsbD (p % 8) =
      (([0x00, 0xE0, 0xE8, 0x76, 0x1F] : List Byte).getD (1 + k * 4 + (4 - 1 - p / 8)) 0).getLsbD (p % 8) := by decide
/-- `95_test_vectors.md` 5.5: a bit of lane 0 changed leaves word 1 (lane 1) as it is. -/
theorem test_met_Locality :
    ∀ p ∈ Config.fmtW32.lane.getD (1 % Config.fmtW32.S) [],
      (([0xAC, 0x20, 0xE8, 0x76, 0x1F] : List Byte).getD (1 + 1 / 3 * 4 + (4 - 1 - p / 8)) 0).getLsbD (p % 8) =
      (([0xAC, 0x20, 0xE8, 0x76, 0x1E] : List Byte).getD (1 + 1 / 3 * 4 + (4 - 1 - p / 8)) 0).getLsbD (p % 8) := by
  decide
/-- R87: a well-formed format with `G = 3`, `S = 2`, `H + T = 81`. -/
theorem test_met_GoldenCount :
    (WireFormat.mk 10 3 2 81 0 [Config.slice 23 10, Config.slice 13 10]).wf = true := by decide
theorem test_met_ListingDecodes : fmtLE16.wf = true ∧ ([0x5A, 0xA5] : List Byte).length = fmtLE16.H ∧
    ([0xEE] : List Byte).length = fmtLE16.T ∧ ([0x77] : List Byte).length < fmtLE16.G ∧
    ∀ x ∈ ([([543], 0x3F)] : List (List Raw10 × Nat)), x.1.length = fmtLE16.S := by decide
theorem test_met_StartAccepted : sIn.phase ≠ .run ∧
    (∀ i, i < 5 → ∃ b, Memory.read sIn.inMem i = some b) ∧ 4 * unitsOf Config.fmtD40 5 ≤ sIn.build.outCap := by
  exact ⟨by decide, fun i hi => (inHolds_iff _ 5).mp (by decide) i hi, by decide⟩
theorem test_met_ContractViolation : sIn.phase ≠ .run ∧ sDone.phase ≠ .run := by decide
theorem test_met_UnseenViolations : (sRun .unit).phase = .run ∧ sIn.phase ≠ .run ∧
    Memory.read sIn.inMem 5 = none ∧ inHolds sIn.inMem 5 = true ∧ 3 < countOf Config.fmtD40 5 ∧
    (setHost [.writeIn 4 0] (sRun .unit)).host = .writeIn 4 0 :: [] ∧ 4 < (sRun .unit).len ∧
    (setHost [.place []] (sRun .unit)).host = .place [] :: [] ∧ (sRun .unit).build.wf = true := by decide
theorem test_met_SkipSetsPos : (atStage .skip (sFmt Config.fmtW32)).len < (sFmt Config.fmtW32).build.fmt.H ∧
    (atStage .skip (sFmt Config.fmtW32)).phase = .run ∧ (atStage .skip (sFmt Config.fmtW32)).count = 0 := by decide
theorem test_met_UnpackWritesLanes : (sRun .unit).build.wf = true ∧
    (sRun .unit).u.width = 8 * (sRun .unit).build.fmt.G ∧ s0.u.val = 0#s0.u.width ∧
    ({ s0 with u := ⟨40, BitVec.allOnes 40⟩ } : State).u.val = BitVec.allOnes 40 := ⟨by decide, rfl, rfl, rfl⟩
theorem test_met_ReferenceRows : s0.build.fmt = Config.fmtD40 ∧ (sFmt Config.fmtW32).build.fmt = Config.fmtW32 ∧
    (sFmt fmtLE16).build.fmt ≠ Config.fmtD40 ∧ (sFmt fmtLE16).build.fmt ≠ Config.fmtW32 := by decide
theorem test_met_NormWritesLane : (sRun (.norm 3)).raw[3]? = some 543#10 ∧ (sRun (.norm 0)).raw[0]? = some 0#10 := by
  decide
theorem test_met_AbsentLaneFaults : (sRun (.norm 3)).raw.length ≤ 4 ∧ (sRun (.norm 3)).fx.length ≤ 4 ∧
    (sRun (.norm 3)).f64.length ≤ 4 := by decide
theorem test_met_CvtWritesLane : (sRun (.cvt 0)).fx[0]? = some 0x200#10 ∧ (sRun (.cvt 2)).fx[2]? = some 0#10 ∧
    2 ^ 9 ≤ (0x200#10).toInt.natAbs ∧ (0x200#10).toInt.natAbs < 2 ^ (9 + 1) ∧ (0#10).toInt = 0 := by decide
theorem test_met_EmitAppends : (sRun (.emit 3)).f64[3]? = some 0x3F9F000000000000#64 ∧
    ({ sRun (.emit 3) with count := 8388607 } : State).count < (sRun (.emit 3)).build.outCap ∧
    ({ sRun (.emit 3) with count := 8388608 } : State).count = (sRun (.emit 3)).build.outCap := by decide
theorem test_met_DropEnds : (sRun .unit).phase = .run ∧
    ({ sRun .unit with pos := 1 } : State).len < 1 + Config.fmtD40.G + Config.fmtD40.T ∧
    (sRun .unit).pos + Config.fmtD40.G + Config.fmtD40.T ≤ (sRun .unit).len ∧ sIn.phase ≠ .run := by decide
theorem test_met_StepRunsSelected : (sRun (.norm 3)).build.wf = true ∧ (sRun (.norm 3)).phase = .run ∧
    (sRun (.norm 3)).host = [] ∧ decode (sRun (.norm 3)).build (selected (sRun (.norm 3))) ⟨0, 0#0⟩ = .ok (.norm 3) ∧
    fetchOperand (.norm 3) (sRun (.norm 3)) = .ok (sRun (.norm 3)) ∧
    exec (.norm 3) (sRun (.norm 3)) = .next (setFx 3 0x01F (sRun (.norm 3))) :=
  ⟨by decide, rfl, rfl, rfl, rfl, rfl⟩
/-- An operation that stops: `EMIT` on a full output. -/
theorem test_met_StepRunsSelected_stop :
    exec (.emit 3) { sRun (.emit 3) with count := 8388608 } = .refused .outputFull ∧
    exec (.norm 3) { sRun (.norm 3) with raw := [] } = .fault (.noSuchLane 3) := ⟨rfl, rfl⟩
theorem test_met_StepRunsStart : sStart.build.wf = true ∧ sStart.host = .start (encodeCmd 23 true 5) :: [] ∧
    decode sStart.build .start (encodeCmd 23 true 5) = .ok (.decode true 5) := ⟨by decide, rfl, rfl⟩
theorem test_met_SequencerOrder : (sRun .skip).stage = .skip ∧ (sRun .unit).stage = .unit ∧
    (sRun .unit).pos + Config.fmtD40.G + Config.fmtD40.T ≤ (sRun .unit).len ∧
    ({ sRun .unit with pos := 1 } : State).len < 1 + Config.fmtD40.G + Config.fmtD40.T ∧
    2 + 1 < (sRun .unit).build.fmt.S ∧ 3 + 1 = (sRun .unit).build.fmt.S := by decide
theorem test_met_WaitsForHost : sIn.build.wf = true ∧ sIn.host = [] ∧ sIn.phase = .idle ∧ sDone.phase = .done ∧
    sDone.host = [] := by decide
theorem test_met_HostWritesInput : (setHost [.place bytes5] s0).host = .place bytes5 :: [] ∧ s0.phase ≠ .run ∧
    (setHost [.writeIn 5 7] (sRun .unit)).host = .writeIn 5 7 :: [] ∧ (sRun .unit).len ≤ 5 := by decide
theorem test_met_HostReads : sDone.Inv ∧ sDone.done = true ∧ 3 < sDone.count ∧ sDone.count ≤ 4 ∧
    (sRun .unit).Inv ∧ (sRun .unit).done = false ∧
    (setHost [.read .count] sDone).host = .read .count :: [] ∧
    hostRead (setHost [.read .count] sDone) .count = .ok (.number 4) :=
  ⟨test_inv_done, rfl, by decide, by decide, test_inv_unit, rfl, rfl, rfl⟩
theorem test_met_ResetMove : (setHost [.reset] (sRun (.cvt 1))).build.wf = true ∧
    (setHost [.reset] (sRun (.cvt 1))).host = .reset :: [] := by decide
theorem test_met_ResetMeetsInvariants : Config.build.wf = true := by decide
theorem test_met_StepKeepsInvariant : (sRun (.norm 3)).Inv ∧
    step (sRun (.norm 3)) = .next (setStage (.cvt 0) (setFx 3 0x01F (sRun (.norm 3)))) := ⟨test_inv_norm, rfl⟩
theorem test_met_StepKeepsTrace : (sRun (.emit 0)).TraceInv ∧
    after (step (sRun (.emit 0))) (·.count) = some 1 := by
  refine ⟨⟨test_inv_emit, fun _ => ?_, fun _ => ?_⟩, by decide⟩
  · exact (by decide : ([] : List (Option F64)) =
      ((decodeBuf Config.fmtD40 (bufOf (Memory.fromList 0 bytes5) 5)).take 0).map some)
  · exact (by decide : (⟨40, 0x003FF8021F#40⟩ : Bits) = unitAt Config.fmtD40 (bufOf (Memory.fromList 0 bytes5) 5) (0 / 4) ∧
      ([0, 1023, 512, 543] : List Raw10) = unpackUnit Config.fmtD40 ⟨40, 0x003FF8021F#40⟩ ∧
      ([0x200, 0x1FF, 0x000, 0x01F] : List Fx10) = ([0, 1023, 512, 543] : List Raw10).map normFn ∧
      ([0xBFE0000000000000, 0x3FDFF00000000000, 0x0000000000000000, 0x3F9F000000000000] : List F64) =
        ([0x200, 0x1FF, 0x000, 0x01F] : List Fx10).map cvtFn)
theorem test_met_PosBounds : sEnd.Inv ∧ sEnd.phase = .run ∧ sEnd.stage ≠ .skip ∧ sEnd.host = [] ∧
    step sEnd = .next (signalDone sEnd) := ⟨test_inv_end, rfl, by decide, rfl, rfl⟩
theorem test_met_ReadsStayInside : (sRun .unit).Inv ∧ (sRun .unit).phase = .run ∧ unitRemains (sRun .unit) = true ∧
    (sRun .unit).pos ≤ 4 ∧ 4 < (sRun .unit).pos + (sRun .unit).build.fmt.G :=
  ⟨test_inv_unit, rfl, by decide, by decide, by decide⟩
/-- For InputReadOnly and OutputFrame. -/
theorem test_met_frames : step (sRun (.norm 3)) = .next (setStage (.cvt 0) (setFx 3 0x01F (sRun (.norm 3)))) ∧
    (sRun (.norm 3)).host = [] ∧ step sIn = .next sIn ∧ sIn.phase ≠ .run := ⟨rfl, rfl, rfl, by decide⟩
theorem test_met_NoStop : (sRun (.emit 0)).Inv ∧ (sRun (.emit 0)).phase = .run ∧ (sRun (.emit 0)).host = [] :=
  ⟨test_inv_emit, rfl, rfl⟩
/-- The second state differs from the first in its bytes and in a datapath register. -/
def sOther : State := { sRun .unit with inMem := Memory.fromList 0 [1, 2, 3, 4, 5], raw := [1, 2, 3, 4] }
theorem test_met_DataNeverSteers : (sRun .unit).Inv ∧ sOther.Inv ∧ (sRun .unit).SameControl sOther ∧
    (sRun .unit).host = [] ∧ sOther ≠ sRun .unit := by
  refine ⟨test_inv_unit, ?_, ⟨rfl, rfl, rfl, rfl, rfl, rfl, rfl, rfl, rfl, rfl⟩, rfl, by decide⟩
  have h := test_inv_unit
  refine ⟨h.built, (by decide : Memory.wf (Memory.fromList 0 [1#8, 2#8, 3#8, 4#8, 5#8])), h.outWf, h.doneIff, h.errDone,
    h.idle, h.counted, h.held, h.uWidth, rfl, h.fxs, h.f64s, fun hr => ?_⟩
  have r := h.running hr
  exact ⟨r.present, r.noError, (by decide : inHolds (Memory.fromList 0 [1#8, 2#8, 3#8, 4#8, 5#8]) 5 = true), r.output,
    r.seq⟩
theorem test_met_UnitStepRefined : (sRun .unit).Inv ∧ (sRun .unit).phase = .run ∧ (sRun .unit).stage = .unit ∧
    unitRemains (sRun .unit) = true ∧ (sRun .unit).host = [] := ⟨test_inv_unit, rfl, rfl, by decide, rfl⟩
theorem test_met_StartAndDrop : sStart.Inv ∧ sStart.phase ≠ .run ∧
    sStart.host = [.start (encodeCmd sStart.build.lenW true 5)] ∧ 5 < 2 ^ sStart.build.lenW ∧
    inHolds sStart.inMem 5 = true ∧ countOf sStart.build.fmt 5 ≤ sStart.build.outCap ∧
    sEnd.Inv ∧ sEnd.phase = .run ∧ sEnd.stage = .unit ∧ unitRemains sEnd = false ∧ sEnd.host = [] :=
  ⟨test_inv_sStart, by decide, rfl, by decide, by decide, by decide, test_inv_end, rfl, rfl, by decide, rfl⟩
theorem test_met_StartBad : (setHost [.start (encodeCmd 23 false 5)] sIn).Inv ∧
    (setHost [.start (encodeCmd 23 false 5)] sIn).host = [.start (encodeCmd sIn.build.lenW false 5)] ∧
    sIn.phase ≠ .run :=
  ⟨inv_waiting Config.fmtD40 (Memory.fromList 0 bytes5) [.start (encodeCmd 23 false 5)] (by decide) (by decide), rfl,
    by decide⟩
/-- For TransactionComputesDecode and, with `test_met_StartBad`, TerminationExact. -/
theorem test_met_Transaction : sStart.Inv ∧ sStart.phase ≠ .run ∧
    sStart.host = [.start (encodeCmd sStart.build.lenW true 5)] ∧ 5 < 2 ^ sStart.build.lenW ∧
    inHolds sStart.inMem 5 = true ∧ countOf sStart.build.fmt 5 ≤ sStart.build.outCap ∧
    1 ≤ transactionOps sStart.build.fmt 5 - 1 ∧ 1 = unitsOf sStart.build.fmt 5 :=
  ⟨test_inv_sStart, by decide, rfl, by decide, by decide, by decide, by decide, by decide⟩
theorem test_met_ErrorThenRecovery :
    (setHost [.start (encodeCmd 23 false 0), .start (encodeCmd 23 true 5)] sIn).Inv ∧ sIn.phase ≠ .run ∧
    5 < 2 ^ sIn.build.lenW ∧ inHolds sIn.inMem 5 = true ∧ countOf sIn.build.fmt 5 ≤ sIn.build.outCap :=
  ⟨inv_waiting Config.fmtD40 (Memory.fromList 0 bytes5)
      [.start (encodeCmd 23 false 0), .start (encodeCmd 23 true 5)] (by decide) (by decide),
    by decide, by decide, by decide, by decide⟩
/-- The second start state has ended a transaction before, and has other words in `OUT` and other registers. -/
theorem test_met_HistoryIndependence : sStart.Inv ∧ (setHost sStart.host sDone).Inv ∧ sStart.phase ≠ .run ∧
    (setHost sStart.host sDone).phase ≠ .run ∧ sStart.build = (setHost sStart.host sDone).build ∧
    sStart.host = [.start (encodeCmd sStart.build.lenW true 5)] ∧ 5 < 2 ^ sStart.build.lenW ∧
    inHolds sStart.inMem 5 = true ∧
    (∀ i, i < 5 → Memory.read (setHost sStart.host sDone).inMem i = Memory.read sStart.inMem i) ∧
    countOf sStart.build.fmt 5 ≤ sStart.build.outCap := by
  refine ⟨test_inv_sStart, ?_, by decide, by decide, rfl, rfl, by decide, by decide, fun _ _ => rfl, by decide⟩
  have h := test_inv_done
  exact ⟨h.built, h.inWf, h.outWf, h.doneIff, h.errDone, h.idle, h.counted, h.held, h.uWidth, h.raws, h.fxs, h.f64s,
    fun hr => absurd hr (by decide)⟩
/-- The same two states with a `START` without a buffer. -/
theorem test_met_HistoryIndependence_absent :
    (setHost [.start (encodeCmd 23 false 5)] sIn).Inv ∧ (setHost [.start (encodeCmd 23 false 5)] sDone).Inv ∧
    (setHost [.start (encodeCmd 23 false 5)] sDone).host = [.start (encodeCmd sIn.build.lenW false 5)] := by
  refine ⟨test_met_StartBad.1, ?_, rfl⟩
  have h := test_inv_done
  exact ⟨h.built, h.inWf, h.outWf, h.doneIff, h.errDone, h.idle, h.counted, h.held, h.uWidth, h.raws, h.fxs, h.f64s,
    fun hr => absurd hr (by decide)⟩
theorem test_met_Instances : fleetStep 1 [sIn, s0] = .next [sIn, s0] := rfl

end Sys2Proof.Tests
end

section
/-! The registers of the block (`10_state.md`): reset, absent lane registers, the steps of the sequencer, the invariant of
the machine under every step, and the bounds of `pos`. -/

namespace Sys2Proof.Machine

/-! ### Reset and absent lane registers -/

theorem readLane_of_length_le {w : Nat} {regs : List (BitVec w)} {j : Nat} (h : regs.length ≤ j) :
    readLane regs j = .error (.noSuchLane j) := by
  simp [readLane, h]

theorem execNorm_of_absent {s : State} {j : Nat} (h : s.raw.length ≤ j) :
    execNorm j s = .fault (.noSuchLane j) := by
  simp [execNorm, normOperand, readLane_of_length_le h]

theorem execCvt_of_absent {s : State} {j : Nat} (h : s.fx.length ≤ j) :
    execCvt j s = .fault (.noSuchLane j) := by
  simp [execCvt, cvtOperand, readLane_of_length_le h]

theorem execEmit_of_absent {s : State} {j : Nat} (h : s.f64.length ≤ j) :
    execEmit j s = .fault (.noSuchLane j) := by
  simp [execEmit, emitOperand, readLane_of_length_le h]

/-- Settles O36: each of the three operations faults where it reads its lane register. -/
theorem absentLaneFaults : Obligations.AbsentLaneFaults := by
  intro s j
  exact ⟨execNorm_of_absent, execCvt_of_absent, execEmit_of_absent⟩

/-- The memories are empty, the register files have their sizes, and no transaction runs or has ended. -/
theorem inv_resetOf {b : Build} (hb : b.wf = true) : (State.resetOf b).Inv where
  built := hb
  inWf := (Memory.wf_reset b).1
  outWf := (Memory.wf_reset b).2
  doneIff := by simp [State.resetOf]
  errDone h := by simp [State.resetOf] at h
  idle _ := rfl
  counted h := by simp [State.resetOf] at h
  held k hk := absurd hk (Nat.not_lt_zero k)
  uWidth := rfl
  raws := List.length_replicate
  fxs := List.length_replicate
  f64s := List.length_replicate
  running h := by simp [State.resetOf] at h

/-- Outside `phase = RUN` the invariant of the Trace adds nothing to the invariant of the machine. -/
theorem State.Inv.traceInv_of_not_run {s : State} (hi : s.Inv) (hr : s.phase ≠ .run) : s.TraceInv :=
  ⟨hi, fun h => absurd h hr, fun h => absurd h hr⟩

/-- Settles O45: R33's values stand in `State.resetOf`, and `phase = IDLE` reduces both invariants to `inv_resetOf`. -/
theorem resetMeetsInvariants : Obligations.ResetMeetsInvariants := by
  intro b
  exact ⟨rfl, rfl, rfl, rfl, rfl, fun hb => (inv_resetOf hb).traceInv_of_not_run (by simp [State.resetOf])⟩


/-! ### The reference rows are `UNPACK` on their formats (R145, R146) -/

/-- R86: a contiguous lane is a field of the unit. -/
theorem unpackLane_slice (u : Bits) {hi : Nat} (h : 9 ≤ hi) :
    unpackLane u (Config.slice hi 10) = u.val.extractLsb' (hi - 9) 10 := by
  refine BitVec.eq_of_getLsbD_eq fun b hb => ?_
  have hpos : (Config.slice hi 10).getD (9 - b) 0 = hi - 9 + b := by
    rw [Config.slice, List.getD_eq_getElem _ _ (by simp; omega)]
    simp
    omega
  rw [unpackLane_getLsbD _ _ _ hb, hpos, BitVec.getLsbD_extractLsb']
  simp [hb, Bits.bit]

theorem unpackUnit_fmtD40 (u : Bits) : unpackUnit Config.fmtD40 u = unpackD40 u := by
  simp [unpackUnit, Config.fmtD40, unpackLane_slice, unpackD40]

theorem unpackUnit_fmtW32 (u : Bits) : unpackUnit Config.fmtW32 u = unpackW32 u := by
  simp [unpackUnit, Config.fmtW32, unpackLane_slice, unpackW32]

/-- R82: a well-formed format gives one raw sample per lane register. -/
theorem unpackUnit_length_of_wf {f : WireFormat} (hf : f.wf = true) (u : Bits) : (unpackUnit f u).length = f.S := by
  obtain ⟨-, -, -, hlane, -⟩ := f.wf_facts hf
  rw [unpackUnit_length, hlane]


/-! ### What the block's own step can do in `phase = RUN` -/

/-- The state after `UNPACK` with the load of `U` before it, from the bytes read (R115, R140). -/
def unpacked (bs : List Byte) (s : State) : State :=
  setStage (.norm 0) (setRaws (unpackUnit s.build.fmt (joinBytes bs)) (setU (joinBytes bs) s))

/-- The steps of the sequencer while `phase = RUN`, by the stage it is at (R115, R118); `blockStep_run` ties them to
the model's step. The reference rows of R145 and R146 are the case `unpack`. -/
inductive SeqStep (s : State) : State → Prop
  | skip (hg : s.stage = .skip) : SeqStep s (setStage .unit (setPos s.build.fmt.H s))
  | unpack (bs : List Byte) (hg : s.stage = .unit) (hu : unitRemains s = true)
      (hbs : memReads s s.pos s.build.fmt.G = .ok bs) : SeqStep s (unpacked bs s)
  | drop (hg : s.stage = .unit) (hu : unitRemains s = false) : SeqStep s (signalDone s)
  | norm (j : Nat) (r : Raw10) (hg : s.stage = .norm j) (hr : s.raw[j]? = some r) :
      SeqStep s (setStage (if j + 1 < s.build.fmt.S then .norm (j + 1) else .cvt 0) (setFx j (normFn r) s))
  | cvt (j : Nat) (x : Fx10) (hg : s.stage = .cvt j) (hx : s.fx[j]? = some x) :
      SeqStep s (setStage (if j + 1 < s.build.fmt.S then .cvt (j + 1) else .emit 0) (setF64 j (cvtFn x) s))
  | emit (j : Nat) (v : F64) (hg : s.stage = .emit j) (hv : s.f64[j]? = some v) (hc : s.count < s.build.outCap)
      (hj : j + 1 < s.build.fmt.S) : SeqStep s (setStage (.emit (j + 1)) (bumpCount (memWrite s.count v s)))
  | emitLast (j : Nat) (v : F64) (hg : s.stage = .emit j) (hv : s.f64[j]? = some v)
      (hc : s.count < s.build.outCap) (hj : ¬ j + 1 < s.build.fmt.S) :
      SeqStep s (setStage .unit (setPos (s.pos + s.build.fmt.G) (bumpCount (memWrite s.count v s))))

/-- But for `START`, whose word carries the operands, a selection decodes to the one operation it names (R96). -/
theorem decode_selection_eq {b : Build} {w : Bits} {i : Instr} (k : Instr) (hk : k.selection ≠ .start)
    (h : decode b k.selection w = .ok i) : i = k := by
  cases k with
  | decode => exact absurd rfl hk
  | skip | unpack | drop =>
    cases h
    rfl
  | unpackD40 | unpackW32 | norm | cvt | emit =>
    simp only [Instr.selection, decode] at h
    split at h <;> cases h
    rfl

/-- The three rows of R96 that unpack a wire unit: `UNPACK` and its reference rows. -/
def IsUnpackRow (i : Instr) : Prop := i = .unpack ∨ i = .unpackD40 ∨ i = .unpackW32

theorem decode_unpackRow_ok {b : Build} {w : Bits} {i : Instr} (h : decode b (unpackRow b.fmt) w = .ok i) :
    IsUnpackRow i := by
  unfold unpackRow at h
  split at h
  · exact .inr (.inl (decode_selection_eq .unpackD40 nofun h))
  · split at h
    · exact .inr (.inr (decode_selection_eq .unpackW32 nofun h))
    · exact .inl (decode_selection_eq .unpack nofun h)

/-- Each of the three rows writes what the general `UNPACK` writes, where it is not refused. -/
theorem exec_unpackRow_next {i : Instr} {s t : State} (hi : IsUnpackRow i) (h : exec i s = .next t) :
    t = setRaws (unpackUnit s.build.fmt s.u) s := by
  rcases hi with rfl | rfl | rfl
  · exact execUnpack_next h
  · obtain ⟨hf, rfl⟩ := execUnpackD40_next h
    rw [hf, unpackUnit_fmtD40]
  · obtain ⟨hf, rfl⟩ := execUnpackW32_next h
    rw [hf, unpackUnit_fmtW32]

theorem fetchOperand_unpackRow {i : Instr} (hi : IsUnpackRow i) (s : State) : fetchOperand i s = loadUnit s := by
  rcases hi with rfl | rfl | rfl <;> rfl

theorem advance_unpackRow {i : Instr} (hi : IsUnpackRow i) (s : State) : advance i s = setStage (.norm 0) s := by
  rcases hi with rfl | rfl | rfl <;> rfl

theorem runOp_unpackRow_next {i : Instr} {s t : State} (hi : IsUnpackRow i) (h : runOp i s = .next t) :
    ∃ bs, memReads s s.pos s.build.fmt.G = .ok bs ∧ t = unpacked bs s := by
  obtain ⟨s1, s2, hload, hexec, rfl⟩ := runOp_next h
  rw [fetchOperand_unpackRow hi] at hload
  obtain ⟨bs, hbs, rfl⟩ := loadUnit_ok hload
  obtain rfl := exec_unpackRow_next hi hexec
  exact ⟨bs, hbs, advance_unpackRow hi _⟩

theorem advance_emit_of_lt {j : Nat} (s : State) (h : j + 1 < s.build.fmt.S) :
    advance (.emit j) s = setStage (.emit (j + 1)) s := if_pos h

theorem advance_emit_last {j : Nat} (s : State) (h : ¬ j + 1 < s.build.fmt.S) :
    advance (.emit j) s = setStage .unit (setPos (s.pos + s.build.fmt.G) s) := if_neg h

/-- In `phase = RUN` a step of the block is one of the sequencer's steps. -/
theorem blockStep_run {s t : State} (hr : s.phase = .run) (h : blockStep s = .next t) : SeqStep s t := by
  obtain ⟨hn, -⟩ | ⟨-, i, hi, hop⟩ := blockStep_next h
  · exact absurd hr hn
  cases hg : s.stage with
  | skip =>
    simp only [selected, hg] at hi
    cases hi
    cases hop
    exact .skip hg
  | unit =>
    simp only [selected, hg] at hi
    by_cases hu : unitRemains s = true
    · rw [if_pos hu] at hi
      obtain ⟨bs, hbs, rfl⟩ := runOp_unpackRow_next (decode_unpackRow_ok hi) hop
      exact .unpack bs hg hu hbs
    · rw [if_neg hu] at hi
      cases hi
      obtain ⟨s1, s2, ⟨⟩, hexec, rfl⟩ := runOp_next hop
      obtain ⟨-, hend, rfl⟩ := execDrop_next hexec
      exact .drop hg hend
  | norm j =>
    simp only [selected, hg] at hi
    obtain rfl := decode_selection_eq (.norm j) nofun hi
    obtain ⟨s1, s2, ⟨⟩, hexec, rfl⟩ := runOp_next hop
    obtain ⟨r, hlane, rfl⟩ := execNorm_next hexec
    exact .norm j r hg hlane
  | cvt j =>
    simp only [selected, hg] at hi
    obtain rfl := decode_selection_eq (.cvt j) nofun hi
    obtain ⟨s1, s2, ⟨⟩, hexec, rfl⟩ := runOp_next hop
    obtain ⟨x, hlane, rfl⟩ := execCvt_next hexec
    exact .cvt j x hg hlane
  | emit j =>
    simp only [selected, hg] at hi
    obtain rfl := decode_selection_eq (.emit j) nofun hi
    obtain ⟨s1, s2, ⟨⟩, hexec, rfl⟩ := runOp_next hop
    obtain ⟨v, hlane, hcap, rfl⟩ := execEmit_next hexec
    by_cases hj : j + 1 < s.build.fmt.S
    · rw [advance_emit_of_lt (bumpCount (memWrite s.count v s)) hj]
      exact .emit j v hg hlane hcap hj
    · rw [advance_emit_last (bumpCount (memWrite s.count v s)) hj]
      exact .emitLast j v hg hlane hcap hj


/-! ### The sequencer's place in the transaction -/

section SeqOk
variable {s : State}

theorem seqOk_skip (hg : s.stage = .skip) : s.seqOk ↔ s.count = 0 := by
  simp [State.seqOk, hg]

theorem seqOk_unit (hg : s.stage = .unit) :
    s.seqOk ↔ ∃ k, k ≤ unitsOf s.build.fmt s.len ∧ s.pos = s.build.fmt.H + k * s.build.fmt.G ∧
      s.count = k * s.build.fmt.S := by
  simp [State.seqOk, hg]

theorem seqOk_norm {j : Nat} (hg : s.stage = .norm j) :
    s.seqOk ↔ ∃ k, k < unitsOf s.build.fmt s.len ∧ s.pos = s.build.fmt.H + k * s.build.fmt.G ∧
      s.count = k * s.build.fmt.S ∧ j < s.build.fmt.S := by
  simp [State.seqOk, hg]

theorem seqOk_cvt {j : Nat} (hg : s.stage = .cvt j) :
    s.seqOk ↔ ∃ k, k < unitsOf s.build.fmt s.len ∧ s.pos = s.build.fmt.H + k * s.build.fmt.G ∧
      s.count = k * s.build.fmt.S ∧ j < s.build.fmt.S := by
  simp [State.seqOk, hg]

theorem seqOk_emit {j : Nat} (hg : s.stage = .emit j) :
    s.seqOk ↔ ∃ k, k < unitsOf s.build.fmt s.len ∧ s.pos = s.build.fmt.H + k * s.build.fmt.G ∧
      s.count = k * s.build.fmt.S + j ∧ j < s.build.fmt.S := by
  simp [State.seqOk, hg]

end SeqOk

/-- At a unit boundary after `k` unit steps, another is enabled exactly when unit `k` is complete (R115, R117). -/
theorem unitRemains_iff_lt_unitsOf {s : State} (hb : s.build.wf = true) {k : Nat}
    (hpos : s.pos = s.build.fmt.H + k * s.build.fmt.G) :
    unitRemains s = true ↔ k < unitsOf s.build.fmt s.len := by
  obtain ⟨-, hG, -⟩ := s.build.fmt.wf_facts hb
  rw [unitRemains_iff, lt_unitsOf_iff hG, hpos]

/-- After `SKIP` the sequencer stands at the start of some unit, or after the last one (R118). -/
theorem State.Inv.exists_unit {s : State} (hi : s.Inv) (hr : s.phase = .run) (hg : s.stage ≠ .skip) :
    ∃ k, k ≤ unitsOf s.build.fmt s.len ∧ s.pos = s.build.fmt.H + k * s.build.fmt.G := by
  have hseq := (hi.running hr).seq
  cases h : s.stage with
  | skip => exact absurd h hg
  | unit =>
    obtain ⟨k, hk, hpos, -⟩ := (seqOk_unit h).mp hseq
    exact ⟨k, hk, hpos⟩
  | norm j =>
    obtain ⟨k, hk, hpos, -⟩ := (seqOk_norm h).mp hseq
    exact ⟨k, hk.le, hpos⟩
  | cvt j =>
    obtain ⟨k, hk, hpos, -⟩ := (seqOk_cvt h).mp hseq
    exact ⟨k, hk.le, hpos⟩
  | emit j =>
    obtain ⟨k, hk, hpos, -⟩ := (seqOk_emit h).mp hseq
    exact ⟨k, hk.le, hpos⟩


/-! ### Every step of the sequencer keeps the invariant -/

section SequencerKeepsInv
variable {s : State}

/-- `SKIP` leads to the boundary before unit 0 (R114). -/
theorem State.Inv.of_skip (hi : s.Inv) (hg : s.stage = .skip) : (setStage .unit (setPos s.build.fmt.H s)).Inv :=
  { hi with
    running := fun hr =>
      have hrun := hi.running hr
      { hrun with
        seq := (seqOk_unit rfl).mpr ⟨0, Nat.zero_le _, by simp, by simp [(seqOk_skip hg).mp hrun.seq]⟩ } }

/-- A unit step begins only where unit `k` is complete, and fills `U` and `RAW` at their sizes (R115, R25). -/
theorem State.Inv.of_unpack (hi : s.Inv) {bs : List Byte} (hg : s.stage = .unit) (hu : unitRemains s = true)
    (hbs : memReads s s.pos s.build.fmt.G = .ok bs) : (unpacked bs s).Inv :=
  { hi with
    uWidth := by
      show (joinBytes bs).width = _
      rw [joinBytes_width, memReads_length hbs]
      rfl
    raws := unpackUnit_length_of_wf hi.built _
    running := fun hr => by
      have hrun := hi.running hr
      obtain ⟨k, -, hpos, hcount⟩ := (seqOk_unit hg).mp hrun.seq
      obtain ⟨-, -, hS, -⟩ := s.build.fmt.wf_facts hi.built
      have hk := (unitRemains_iff_lt_unitsOf hi.built hpos).mp hu
      exact { hrun with seq := (seqOk_norm rfl).mpr ⟨k, hk, hpos, hcount, hS⟩ } }

/-- `DROP` ends the transaction after the last complete unit, so with `count(LEN)` samples (R113, R117). -/
theorem State.Inv.of_drop (hi : s.Inv) (hr : s.phase = .run) (hg : s.stage = .unit) (hu : unitRemains s = false) :
    (signalDone s).Inv :=
  { hi with
    doneIff := by simp
    errDone := fun he => absurd (hi.running hr).noError (by simpa using he)
    idle := fun h => by simp at h
    running := fun h => by simp at h
    counted := fun _ _ => by
      obtain ⟨k, hk, hpos, hcount⟩ := (seqOk_unit hg).mp (hi.running hr).seq
      have hlast : ¬ k < unitsOf s.build.fmt s.len := by
        rw [← unitRemains_iff_lt_unitsOf hi.built hpos, hu]
        simp
      obtain rfl : k = unitsOf s.build.fmt s.len := by omega
      simp [countOf, hcount, Nat.mul_comm] }

/-- `NORM` of a lane leads to the next lane, or to `CVT` of lane 0 (R115). -/
theorem State.Inv.of_norm (hi : s.Inv) {j : Nat} (x : Fx10) (hg : s.stage = .norm j) :
    (setStage (if j + 1 < s.build.fmt.S then .norm (j + 1) else .cvt 0) (setFx j x s)).Inv :=
  { hi with
    fxs := by simp [hi.fxs]
    running := fun hr => by
      have hrun := hi.running hr
      obtain ⟨k, hk, hpos, hcount, hj⟩ := (seqOk_norm hg).mp hrun.seq
      refine { hrun with seq := ?_ }
      split
      · exact (seqOk_norm rfl).mpr ⟨k, hk, hpos, hcount, ‹_›⟩
      · exact (seqOk_cvt rfl).mpr ⟨k, hk, hpos, hcount, Nat.zero_lt_of_lt hj⟩ }

/-- `CVT` of a lane leads to the next lane, or to `EMIT` of lane 0 (R115). -/
theorem State.Inv.of_cvt (hi : s.Inv) {j : Nat} (w : F64) (hg : s.stage = .cvt j) :
    (setStage (if j + 1 < s.build.fmt.S then .cvt (j + 1) else .emit 0) (setF64 j w s)).Inv :=
  { hi with
    f64s := by simp [hi.f64s]
    running := fun hr => by
      have hrun := hi.running hr
      obtain ⟨k, hk, hpos, hcount, hj⟩ := (seqOk_cvt hg).mp hrun.seq
      refine { hrun with seq := ?_ }
      split
      · exact (seqOk_cvt rfl).mpr ⟨k, hk, hpos, hcount, ‹_›⟩
      · exact (seqOk_emit rfl).mpr ⟨k, hk, hpos, by simpa using hcount, Nat.zero_lt_of_lt hj⟩ }

/-- A word stored at `COUNT` before `COUNT` grows keeps the Trace held. -/
theorem State.traceHeld.emit (h : s.traceHeld) (v : F64) : (bumpCount (memWrite s.count v s)).traceHeld := by
  intro k hk
  simp only [bumpCount_count, memWrite_count, bumpCount_out, memWrite_out] at hk ⊢
  rw [Memory.read_write]
  split
  · rfl
  · exact h k (by omega)

/-- After a word is stored, only where the sequencer stands is left to show. -/
theorem State.Inv.of_stored (hi : s.Inv) (hr : s.phase = .run) (v : F64) {g : Stage} {p : Nat}
    (hseq : (setStage g (setPos p (bumpCount (memWrite s.count v s)))).seqOk) :
    (setStage g (setPos p (bumpCount (memWrite s.count v s)))).Inv :=
  { hi with
    outWf := Memory.wf_write _ _ hi.outWf
    held := hi.held.emit v
    errDone := fun he => absurd (hi.running hr).noError (by simpa using he)
    idle := fun h => by simp [hr] at h
    counted := fun h => by simp [hr] at h
    running := fun _ => { hi.running hr with seq := hseq } }

/-- `EMIT` of a lane that is not the last leads to the next lane, with one more word (R115, R116). -/
theorem State.Inv.of_emit (hi : s.Inv) (hr : s.phase = .run) {j : Nat} (v : F64) (hg : s.stage = .emit j)
    (hj : j + 1 < s.build.fmt.S) : (setStage (.emit (j + 1)) (bumpCount (memWrite s.count v s))).Inv := by
  obtain ⟨k, hk, hpos, hcount, -⟩ := (seqOk_emit hg).mp (hi.running hr).seq
  exact hi.of_stored hr v (p := s.pos)
    ((seqOk_emit rfl).mpr ⟨k, hk, hpos, by simp [hcount, Nat.add_assoc], hj⟩)

/-- `EMIT` of the last lane leads to the boundary after the unit (R115). -/
theorem State.Inv.of_emitLast (hi : s.Inv) (hr : s.phase = .run) {j : Nat} (v : F64) (hg : s.stage = .emit j)
    (hj : ¬ j + 1 < s.build.fmt.S) :
    (setStage .unit (setPos (s.pos + s.build.fmt.G) (bumpCount (memWrite s.count v s)))).Inv := by
  obtain ⟨k, hk, hpos, hcount, hlt⟩ := (seqOk_emit hg).mp (hi.running hr).seq
  have hS : s.build.fmt.S = j + 1 := by omega
  exact hi.of_stored hr v
    ((seqOk_unit rfl).mpr ⟨k + 1, hk, by simp [hpos]; ring, by simp [hcount, hS]; ring⟩)

theorem SeqStep.inv {t : State} (h : SeqStep s t) (hi : s.Inv) (hr : s.phase = .run) : t.Inv := by
  cases h with
  | skip hg => exact hi.of_skip hg
  | unpack bs hg hu hbs => exact hi.of_unpack hg hu hbs
  | drop hg hu => exact hi.of_drop hr hg hu
  | norm j r hg => exact hi.of_norm (normFn r) hg
  | cvt j x hg => exact hi.of_cvt (cvtFn x) hg
  | emit j v hg _ _ hj => exact hi.of_emit hr v hg hj
  | emitLast j v hg _ _ hj => exact hi.of_emitLast hr v hg hj

end SequencerKeepsInv

/-! ### Every move of the host keeps the invariant -/

section HostKeepsInv
variable {s : State}

theorem State.Inv.of_blockStep {t : State} (hi : s.Inv) (h : blockStep s = .next t) : t.Inv := by
  by_cases hr : s.phase = .run
  · exact (blockStep_run hr h).inv hi hr
  · obtain ⟨-, rfl⟩ | ⟨hr', -⟩ := blockStep_next h
    · exact hi
    · exact absurd hr' hr

/-- The invariant says nothing of the host's moves still to come. -/
theorem State.Inv.of_setHost (hi : s.Inv) (rest : List HostMove) : (setHost rest s).Inv :=
  { hi with running := fun hr => { hi.running hr with } }

/-- R230: the free values of a reset have the sizes of the registers. -/
theorem State.Inv.of_resetMove (hi : s.Inv) : (resetMove s).Inv :=
  { hi with
    outWf := List.Pairwise.nil
    doneIff := by simp
    errDone := fun h => by simp at h
    idle := fun _ => rfl
    counted := fun h => by simp at h
    held := fun k hk => absurd hk (Nat.not_lt_zero k)
    uWidth := rfl
    raws := by simp [resetMove]
    fxs := by simp [resetMove]
    f64s := by simp [resetMove]
    running := fun h => by simp at h }

/-- A write to `IN` that keeps its form, and the buffer while a transaction runs, keeps the invariant (R64). -/
theorem State.Inv.of_setIn (hi : s.Inv) {m : Memory 8} (hm : Memory.wf m)
    (hin : s.phase = .run → inHolds m s.len = true) : (setIn m s).Inv :=
  { hi with
    inWf := hm
    running := fun hr => { hi.running hr with input := hin hr } }

theorem inHolds_write {m : Memory 8} {n : Nat} (h : inHolds m n = true) (i : Nat) (b : Byte) :
    inHolds (Memory.write m i b) n = true := by
  rw [inHolds_iff] at h ⊢
  intro c hc
  rw [Memory.read_write]
  split
  · exact ⟨b, rfl⟩
  · exact h c hc

/-- R200: the exception leaves `ERR = 1` with `COUNT = 0`, in phase `DONE`. -/
theorem State.Inv.of_startBad (hi : s.Inv) : (startBad s).Inv :=
  { hi with
    doneIff := by simp [startBad]
    errDone := fun _ => ⟨rfl, rfl⟩
    idle := fun _ => rfl
    counted := fun _ h => by simp [startBad] at h
    held := fun k hk => absurd hk (Nat.not_lt_zero k)
    running := fun h => by simp [startBad] at h }

/-- R112: an accepted `START` enters `phase = RUN` with the host's two promises, before `SKIP`. -/
theorem State.Inv.of_startAccepted (hi : s.Inv) {len : Nat} (hin : inHolds s.inMem len = true)
    (hout : countOf s.build.fmt len ≤ s.build.outCap) : (enterRun len (clearResults s)).Inv :=
  { hi with
    doneIff := by simp
    errDone := fun h => by simp at h
    idle := fun _ => rfl
    counted := fun h => by simp at h
    held := fun k hk => absurd hk (Nat.not_lt_zero k)
    running := fun _ =>
      { present := rfl, noError := rfl, input := hin, output := hout, seq := (seqOk_skip rfl).mpr rfl } }

theorem State.Inv.of_execDecode {t : State} (hi : s.Inv) {p : Bool} {len : Nat} (h : execDecode p len s = .next t) :
    t.Inv := by
  obtain ⟨-, ⟨-, rfl⟩ | ⟨-, hin, hout, rfl⟩⟩ := execDecode_next h
  · exact hi.of_startBad
  · exact hi.of_startAccepted hin hout

theorem State.Inv.of_hostMove {t : State} {m : HostMove} (hi : s.Inv) (h : hostMove m s = .next t) : t.Inv := by
  obtain ⟨-, hb⟩ | ⟨cmd, p, len, -, -, hd⟩ | ⟨-, rfl⟩ | ⟨bytes, -, hr, rfl⟩ | ⟨i, b, -, -, rfl⟩ | ⟨-, -, rfl⟩ :=
    hostMove_next h
  · exact hi.of_blockStep hb
  · exact hi.of_execDecode hd
  · exact hi.of_resetMove
  · exact hi.of_setIn (Memory.wf_fromList 0 bytes) fun hr' => absurd hr' hr
  · exact hi.of_setIn (Memory.wf_write i b hi.inWf) fun hr => inHolds_write (hi.running hr).input i b
  · exact hi

theorem State.Inv.of_step {t : State} (hi : s.Inv) (h : step s = .next t) : t.Inv := by
  obtain ⟨-, ⟨-, hb⟩ | ⟨m, rest, -, hm⟩⟩ := step_next h
  · exact hi.of_blockStep hb
  · exact (hi.of_setHost rest).of_hostMove hm

end HostKeepsInv

/-- Settles O46: a step is the block's own or a move of the host, and each of them keeps the invariant. -/
theorem stepKeepsInvariant : Obligations.StepKeepsInvariant :=
  fun _ _ hi h => hi.of_step h


/-! ### The bounds of `pos` -/

/-- R24: `pos` is `H`, or the end of a complete unit, which lies before the trailer. -/
theorem State.Inv.pos_bounds {s : State} (hi : s.Inv) (hr : s.phase = .run) (hg : s.stage ≠ .skip) :
    s.build.fmt.H ≤ s.pos ∧ s.pos ≤ max s.build.fmt.H (s.len - s.build.fmt.T) := by
  obtain ⟨k, hk, hpos⟩ := hi.exists_unit hr hg
  rw [hpos]
  refine ⟨Nat.le_add_right _ _, ?_⟩
  cases k with
  | zero => simp
  | succ k =>
    obtain ⟨-, hG, -⟩ := s.build.fmt.wf_facts hi.built
    have hend := (lt_unitsOf_iff hG s.len k).mp hk
    have hmul : (k + 1) * s.build.fmt.G = k * s.build.fmt.G + s.build.fmt.G := by ring
    omega

/-- R27: after `SKIP`, only the last `EMIT` of a unit writes `pos`, and it adds `G`. -/
theorem SeqStep.pos_le {s t : State} (h : SeqStep s t) (hskip : s.stage ≠ .skip) : s.pos ≤ t.pos := by
  cases h with
  | skip hg => exact absurd hg hskip
  | unpack => exact Nat.le_refl _
  | drop => exact Nat.le_refl _
  | norm => exact Nat.le_refl _
  | cvt => exact Nat.le_refl _
  | emit => exact Nat.le_refl _
  | emitLast => exact Nat.le_add_right _ _

/-- Settles O48, from the unit the sequencer is at and from the steps it can take. -/
theorem posBounds : Obligations.PosBounds := by
  intro s hi hr hg
  obtain ⟨hlow, hhigh⟩ := hi.pos_bounds hr hg
  refine ⟨hlow, hhigh, fun t hhost h => ?_⟩
  rw [step_of_block hi.built hhost] at h
  exact (blockStep_run hr h).pos_le hg

end Sys2Proof.Machine
end

section
/-! The two memories and the host (`20_memory.md`): what the host writes to `IN` and reads of the results, which bytes a
unit step reads, and what every step leaves unchanged of `IN`, of the operands and of `OUT`. -/

namespace Sys2Proof.Machine

/-! ### The reads of a unit step (R57) -/

theorem exists_memRead_of_lt {s : State} {i : Nat} (hin : inHolds s.inMem s.len = true) (h : i < s.len) :
    ∃ b, memRead s i = .ok b ∧ s.buf[i]? = some b := by
  have hlt : i < s.buf.length := by rwa [buf_length]
  have hbyte := List.getElem?_eq_getElem hlt
  exact ⟨s.buf[i], by rw [memRead_of_lt hin h, hbyte]; rfl, hbyte⟩

/-- R115: where the `G` bytes at `pos` lie in the buffer, the load takes them as the wire unit. -/
theorem loadUnit_of_le {s : State} (hin : inHolds s.inMem s.len = true) (h : s.pos + s.build.fmt.G ≤ s.len) :
    loadUnit s = .ok (setU (joinBytes ((s.buf.drop s.pos).take s.build.fmt.G)) s) := by
  simp [loadUnit, memReads_of_le hin _ _ h]

/-- Settles O49: `unitRemains` puts the unit below `LEN - T`, and the invariant has `IN` hold every byte below `LEN`. -/
theorem readsStayInside : Obligations.ReadsStayInside := by
  intro s hi hr hu
  have hin := (hi.running hr).input
  have hend := (unitRemains_iff s).mp hu
  refine ⟨by omega, fun i _ hlt => exists_memRead_of_lt hin (by omega), ?_⟩
  exact ⟨_, loadUnit_of_le hin (by omega), rfl⟩


/-! ### The host's reads (R62, R236) -/

section HostReads
variable {s : State}

theorem hostRead_err_of_done (h : s.done = true) : hostRead s .err = .ok (.flag s.err) := if_pos h

theorem hostRead_count_of_done (h : s.done = true) : hostRead s .count = .ok (.number s.count) := if_pos h

theorem hostRead_out_of_some {k : Nat} {w : F64} (h : s.done = true) (hk : k < s.count)
    (hw : Memory.read s.out k = some w) : hostRead s (.out k) = .ok (.word w) := by
  simp [hostRead, h, hk, hw]

theorem hostRead_out_of_count_le {k : Nat} (h : s.done = true) (hk : s.count ≤ k) :
    hostRead s (.out k) = .error .readOutsideTrace := by
  simp [hostRead, h, hk]

/-- R62: before `DONE = 1` the host reads `DONE` and nothing else. -/
theorem hostRead_before_done (h : s.done = false) {r : HostRead} (hr : r ≠ .done) :
    hostRead s r = .error .readBeforeDone := by
  cases r with
  | done => exact absurd rfl hr
  | err => simp [hostRead, h]
  | count => simp [hostRead, h]
  | out k => simp [hostRead, h]

/-- A read looks at the flags, `COUNT` and `OUT`, and not at the moves still to come. -/
theorem hostRead_setHost (rest : List HostMove) (r : HostRead) : hostRead (setHost rest s) r = hostRead s r := by
  cases r <;> rfl

theorem hostMove_read {r : HostRead} {v : HostValue} (h : hostRead s r = .ok v) : hostMove (.read r) s = .next s := by
  simp [hostMove, h]

end HostReads

/-- Settles O43, by `DONE` and, for a word of `OUT`, by its index against `COUNT`; that a word of the Trace holds a
value is part of the invariant. -/
theorem hostReadsResults : Obligations.HostReadsResults := by
  intro s hi
  refine ⟨rfl, fun hdone => ?_, fun hdone => ?_, fun r v rest hhost hread => ?_⟩
  · refine ⟨hostRead_err_of_done hdone, hostRead_count_of_done hdone, fun k hk => ?_,
      fun k => hostRead_out_of_count_le hdone⟩
    obtain ⟨w, hw⟩ := Option.isSome_iff_exists.mp (hi.held k hk)
    exact ⟨w, hostRead_out_of_some hdone hk hw, hw⟩
  · exact ⟨hostRead_before_done hdone nofun, hostRead_before_done hdone nofun,
      fun k => hostRead_before_done hdone nofun⟩
  · rw [step_of_host hi.built hhost]
    exact hostMove_read ((hostRead_setHost rest r).trans hread)


/-! ### The host's writes to `IN` (R64, R234, R235) -/

theorem hostMove_place {s : State} (bytes : List Byte) (h : s.phase ≠ .run) :
    hostMove (.place bytes) s = .next (setIn (Memory.fromList 0 bytes) s) := if_neg h

theorem hostMove_writeIn {s : State} {i : Nat} (b : Byte) (h : s.phase ≠ .run ∨ s.len ≤ i) :
    hostMove (.writeIn i b) s = .next (setIn (Memory.write s.inMem i b) s) :=
  if_pos ((mayWriteIn_iff s i).mpr h)

/-- Settles O42: a placed buffer reads as its bytes, and a byte written changes the read of its own index alone. -/
theorem hostWritesInput : Obligations.HostWritesInput := by
  refine ⟨fun s bytes rest hb hhost hr => ?_, fun s i b rest hb hhost hw => ?_⟩
  · refine ⟨Memory.fromList 0 bytes, ?_, fun i => by simp [Memory.read_fromList]⟩
    rw [step_of_host hb hhost]
    exact hostMove_place bytes hr
  · refine ⟨Memory.write s.inMem i b, ?_, Memory.read_write_same _ _ _, fun k => Memory.read_write_other _ _ _ _⟩
    rw [step_of_host hb hhost]
    exact hostMove_writeIn b hw


/-! ### What a step leaves unchanged -/

/-- The block's own step leaves the state outside `phase = RUN`, and is one of the sequencer's steps in it (R118). -/
theorem blockStep_stays_or_seqStep {s t : State} (h : blockStep s = .next t) :
    (s.phase ≠ .run ∧ t = s) ∨ (s.phase = .run ∧ SeqStep s t) := by
  by_cases hr : s.phase = .run
  · exact .inr ⟨hr, blockStep_run hr h⟩
  · obtain hstay | ⟨hr', -⟩ := blockStep_next h
    · exact .inl hstay
    · exact absurd hr' hr

/-- What the block reads and its own steps never write: the build, the operands and `IN` (R21, R22, R50). -/
structure State.SameInputs (s t : State) : Prop where
  build : t.build = s.build
  present : t.present = s.present
  len : t.len = s.len
  inMem : t.inMem = s.inMem

theorem SeqStep.sameInputs {s t : State} (h : SeqStep s t) : s.SameInputs t := by
  cases h with
  | skip | unpack | drop | norm | cvt | emit | emitLast => exact ⟨rfl, rfl, rfl, rfl⟩

theorem blockStep_sameInputs {s t : State} (h : blockStep s = .next t) : s.SameInputs t := by
  obtain ⟨-, rfl⟩ | ⟨-, hstep⟩ := blockStep_stays_or_seqStep h
  · exact ⟨rfl, rfl, rfl, rfl⟩
  · exact hstep.sameInputs

/-- R112, R200: a `START` latches the operands and leaves the build and both memories. -/
theorem execDecode_frame {p : Bool} {len : Nat} {s t : State} (h : execDecode p len s = .next t) :
    t.build = s.build ∧ t.inMem = s.inMem ∧ t.out = s.out := by
  obtain ⟨-, ⟨-, rfl⟩ | ⟨-, -, -, rfl⟩⟩ := execDecode_next h
  · exact ⟨rfl, rfl, rfl⟩
  · exact ⟨rfl, rfl, rfl⟩

/-- The host's two moves that write `IN` (R64). -/
def HostMove.WritesIn (m : HostMove) : Prop := (∃ bytes, m = .place bytes) ∨ ∃ i b, m = .writeIn i b

theorem hostMove_build {m : HostMove} {s t : State} (h : hostMove m s = .next t) : t.build = s.build := by
  obtain ⟨-, hb⟩ | ⟨cmd, p, len, -, -, hd⟩ | ⟨-, rfl⟩ | ⟨bytes, -, -, rfl⟩ | ⟨i, b, -, -, rfl⟩ | ⟨r, -, rfl⟩ :=
    hostMove_next h
  · exact (blockStep_sameInputs hb).build
  · obtain ⟨hbuild, -, -⟩ := execDecode_frame hd
    exact hbuild
  · exact resetMove_build s
  · exact setIn_build _ s
  · exact setIn_build _ s
  · rfl

theorem hostMove_inMem {m : HostMove} {s t : State} (h : hostMove m s = .next t) (hm : ¬ m.WritesIn) :
    t.inMem = s.inMem := by
  obtain ⟨-, hb⟩ | ⟨cmd, p, len, -, -, hd⟩ | ⟨-, rfl⟩ | ⟨bytes, hp, -⟩ | ⟨i, b, hw, -⟩ | ⟨r, -, rfl⟩ :=
    hostMove_next h
  · exact (blockStep_sameInputs hb).inMem
  · obtain ⟨-, hin, -⟩ := execDecode_frame hd
    exact hin
  · exact resetMove_inMem s
  · exact absurd (.inl ⟨bytes, hp⟩) hm
  · exact absurd (.inr ⟨i, b, hw⟩) hm
  · rfl

/-- Settles O50: the block's own steps keep all its inputs; of the host's moves none writes the build, and two write
`IN`. -/
theorem inputReadOnly : Obligations.InputReadOnly := by
  intro s t h
  obtain ⟨-, ⟨-, hblock⟩ | ⟨m, rest, hhost, hmove⟩⟩ := step_next h
  · have hsame := blockStep_sameInputs hblock
    exact ⟨hsame.build, fun _ _ => hsame.inMem, fun _ => ⟨hsame.present, hsame.len, hsame.inMem⟩⟩
  · have hbuild := hostMove_build hmove
    refine ⟨hbuild, fun hplace hwrite => ?_, fun hnil => ?_⟩
    · have hnot : ¬ m.WritesIn := by
        rintro (⟨bytes, rfl⟩ | ⟨i, b, rfl⟩)
        · exact hplace bytes rest hhost
        · exact hwrite i b rest hhost
      have hin := hostMove_inMem hmove hnot
      exact hin
    · simp [hnil] at hhost

/-- R58, R59: what a step may change of `OUT`: the word at `COUNT`, and nothing outside `phase = RUN`. -/
structure State.OutKept (s t : State) : Prop where
  other : ∀ k, k ≠ s.count → Memory.read t.out k = Memory.read s.out k
  outsideRun : s.phase ≠ .run → t.out = s.out

theorem State.OutKept.of_eq {s t : State} (h : t.out = s.out) : s.OutKept t := ⟨fun _ _ => by rw [h], fun _ => h⟩

/-- R116: of the sequencer's steps only `EMIT` writes `OUT`, at `COUNT`. -/
theorem SeqStep.outKept {s t : State} (h : SeqStep s t) (hr : s.phase = .run) : s.OutKept t := by
  cases h with
  | skip | unpack | drop | norm | cvt => exact .of_eq rfl
  | emit | emitLast => exact ⟨fun k hk => Memory.read_write_other _ _ _ _ hk, fun h => absurd hr h⟩

theorem blockStep_outKept {s t : State} (h : blockStep s = .next t) : s.OutKept t := by
  obtain ⟨-, rfl⟩ | ⟨hr, hstep⟩ := blockStep_stays_or_seqStep h
  · exact .of_eq rfl
  · exact hstep.outKept hr

theorem hostMove_outKept {m : HostMove} {s t : State} (h : hostMove m s = .next t) (hm : m ≠ .reset) :
    s.OutKept t := by
  obtain ⟨-, hb⟩ | ⟨cmd, p, len, -, -, hd⟩ | ⟨hreset, -⟩ | ⟨bytes, -, -, rfl⟩ | ⟨i, b, -, -, rfl⟩ | ⟨r, -, rfl⟩ :=
    hostMove_next h
  · exact blockStep_outKept hb
  · obtain ⟨-, -, hout⟩ := execDecode_frame hd
    exact .of_eq hout
  · exact absurd hreset hm
  · exact .of_eq (setIn_out _ s)
  · exact .of_eq (setIn_out _ s)
  · exact .of_eq rfl

/-- Settles O51: but for a reset, only `EMIT` writes `OUT`, and the sequencer takes it in `phase = RUN` alone. -/
theorem outputFrame : Obligations.OutputFrame := by
  intro s t h hreset
  obtain ⟨-, ⟨-, hblock⟩ | ⟨m, rest, hhost, hmove⟩⟩ := step_next h
  · have hkept := blockStep_outKept hblock
    exact ⟨hkept.other, hkept.outsideRun⟩
  · have hne : m ≠ .reset := fun hm => hreset rest (hm ▸ hhost)
    have hkept := hostMove_outKept hmove hne
    exact ⟨hkept.other, hkept.outsideRun⟩

end Sys2Proof.Machine
end

section
/-! The encodings (`30_encoding.md`): the bytes of a wire unit, the samples of a unit and `PACK`, a written listing and what
its bytes decode to, the framing arithmetic of the golden count, the command word, and the operation a step selects. -/

namespace Sys2Proof

/-! ### Lists of blocks of one length -/

theorem length_flatten_of_blocks {α : Type} {c : Nat} {bs : List (List α)} (h : ∀ b ∈ bs, b.length = c) :
    bs.flatten.length = bs.length * c := by
  rw [List.length_flatten, List.map_congr_left h, List.map_const', List.sum_replicate, smul_eq_mul]

/-- Block `k` of blocks of length `c` stands `k*c` after the first. -/
theorem take_drop_flatten_of_blocks {α : Type} {c : Nat} {bs : List (List α)} (h : ∀ b ∈ bs, b.length = c) {k : Nat}
    (hk : k < bs.length) (rest : List α) : ((bs.flatten ++ rest).drop (k * c)).take c = bs[k] := by
  induction bs generalizing k with
  | nil => simp at hk
  | cons b bs ih =>
    obtain ⟨hb, hbs⟩ := List.forall_mem_cons.mp h
    cases k with
    | zero => simp [← hb]
    | succ k =>
      have hskip : (k + 1) * c = b.length + k * c := by rw [Nat.succ_mul, hb, Nat.add_comm]
      rw [List.flatten_cons, List.append_assoc, hskip, ← List.drop_drop, List.drop_left]
      exact ih hbs (Nat.lt_of_succ_lt_succ hk)


/-! ### The bytes of a wire unit (R81) -/

/-- R81: bit `i` of byte `b`. -/
theorem unitByte_getLsbD (g : Nat) (u : Bits) (b : Nat) {i : Nat} (hi : i < 8) :
    (unitByte g u b).getLsbD i = u.bit (8 * (g - 1 - b) + i) := by
  rw [unitByte, BitVec.getLsbD_extractLsb', decide_eq_true hi, Bool.true_and]
  rfl

theorem unitBytes_length (g : Nat) (u : Bits) : (unitBytes g u).length = g := by
  simp [unitBytes]

theorem unitBytes_getD (u : Bits) {g b : Nat} (hb : b < g) : (unitBytes g u).getD b 0 = unitByte g u b := by
  simp [unitBytes, hb]

/-- Byte `b` of joined bytes is the byte they were joined from. -/
theorem unitByte_joinBytes (bs : List Byte) {b : Nat} (hb : b < bs.length) :
    unitByte bs.length (joinBytes bs) b = bs[b] := by
  refine BitVec.eq_of_getLsbD_eq fun i hi => ?_
  have hbyte : bs.length - 1 - (8 * (bs.length - 1 - b) + i) / 8 = b := by omega
  have hbit : (8 * (bs.length - 1 - b) + i) % 8 = i := by omega
  rw [unitByte_getLsbD _ _ _ hi, joinBytes_bit _ _ (by omega), hbyte, hbit, List.getD_eq_getElem _ _ hb]

/-- Joining the bytes of a unit gives the unit back. -/
theorem joinBytes_unitBytes {g : Nat} {u : Bits} (hw : u.width = 8 * g) : joinBytes (unitBytes g u) = u := by
  have hlen : (joinBytes (unitBytes g u)).width = 8 * g := by rw [joinBytes_width, unitBytes_length]
  refine Bits.ext_bit (hlen.trans hw.symm) fun p hp => ?_
  rw [hlen] at hp
  have hbyte : g - 1 - p / 8 < g := by omega
  have hbit : 8 * (g - 1 - (g - 1 - p / 8)) + p % 8 = p := by omega
  rw [joinBytes_bit _ _ (by rwa [unitBytes_length]), unitBytes_length, unitBytes_getD _ hbyte,
    unitByte_getLsbD _ _ _ (Nat.mod_lt _ (by decide)), hbit]

/-- Settles O4: both clauses compare the bits through `joinBytes_bit`. -/
theorem wireUnitBytes : Obligations.WireUnitBytes := by
  refine ⟨fun bytes => ⟨joinBytes_width bytes, fun b hb => ?_⟩, fun g v => joinBytes_unitBytes rfl⟩
  have hlow : 8 * (bytes.length - b) - 8 = 8 * (bytes.length - 1 - b) := by omega
  rw [hlow, List.getElem?_eq_getElem hb]
  exact congrArg some (unitByte_joinBytes bytes hb)


/-! ### The samples of a unit, and `PACK` (R84, R147) -/

/-- Settles O5: lane `j` has ten positions, and `unpackLane` puts bit `lane[j][i]` of `U` at bit `9 - i`. -/
theorem laneExtraction : Obligations.LaneExtraction := by
  intro f u j i lane hf hlane hi
  obtain ⟨-, -, -, -, hten, -⟩ := f.wf_facts hf
  have hlt : i < lane.length := by rw [hten lane (List.mem_of_getElem? hlane)]; exact hi
  have hback : 9 - (9 - i) = i := by omega
  refine ⟨unpackLane u lane, lane[i], by simp [unpackUnit, hlane], List.getElem?_eq_getElem hlt, ?_⟩
  rw [unpackLane_getLsbD _ _ _ (by omega), hback, List.getD_eq_getElem _ _ hlt, Bits.bit]

theorem packUnit_bit (f : WireFormat) (raws : List Raw10) (st : Nat) {p : Nat} (hp : p < 8 * f.G) :
    (packUnit f raws st).bit p = packBit f raws st p := by
  rw [Bits.bit, packUnit, bitsOfFn_getLsbD, decide_eq_true hp, Bool.true_and]

/-- R147: at position `lane[j][i]` stands bit `9 - i` of sample `j`. -/
theorem packUnit_bit_lane {f : WireFormat} (hf : f.wf = true) (raws : List Raw10) (st : Nat) {j i : Nat}
    (hj : j < f.lane.length) (hi : i < f.lane[j].length) :
    (packUnit f raws st).bit f.lane[j][i] = (raws.getD j 0).getLsbD (9 - i) := by
  obtain ⟨-, -, -, -, -, hrange, hdistinct⟩ := f.wf_facts hf
  have hp := hrange _ (List.getElem_mem hj) _ (List.getElem_mem hi)
  rw [packUnit_bit _ _ _ hp, packBit, findLane_getElem hdistinct hj hi]

/-- R147: `UNPACK(PACK(r, st)) = r`, whatever the status value. -/
theorem unpackUnit_packUnit {f : WireFormat} (hf : f.wf = true) {raws : List Raw10} (hlen : raws.length = f.S)
    (st : Nat) : unpackUnit f (packUnit f raws st) = raws := by
  obtain ⟨-, -, -, hlanes, hten, -⟩ := f.wf_facts hf
  refine List.ext_getElem (by rw [unpackUnit_length, hlanes, hlen]) fun j hj hr => ?_
  have hj' : j < f.lane.length := by rwa [unpackUnit_length] at hj
  simp only [unpackUnit, List.getElem_map]
  refine BitVec.eq_of_getLsbD_eq fun b hb => ?_
  have hi : 9 - b < f.lane[j].length := by rw [hten _ (List.getElem_mem hj')]; omega
  have hback : 9 - (9 - b) = b := by omega
  rw [unpackLane_getLsbD _ _ _ hb, List.getD_eq_getElem _ _ hi, packUnit_bit_lane hf raws st hj' hi, hback,
    List.getD_eq_getElem _ _ hr]

/-- R82: `S` lanes of ten positions each, all different, fit in the `8*G` bits of the unit. -/
theorem WireFormat.ten_mul_S_le {f : WireFormat} (hf : f.wf = true) : 10 * f.S ≤ 8 * f.G := by
  obtain ⟨-, -, -, hlanes, hten, hrange, hdistinct⟩ := f.wf_facts hf
  have hsub : f.lane.flatten ⊆ List.range (8 * f.G) := fun p hp => by
    obtain ⟨l, hl, hpl⟩ := List.mem_flatten.mp hp
    exact List.mem_range.mpr (hrange l hl p hpl)
  have hle := (hdistinct.subperm hsub).length_le
  rwa [length_flatten_of_blocks hten, hlanes, List.length_range, Nat.mul_comm] at hle


/-! ### The command word and the selections (R94, R96) -/

theorem cmdPresent_encodeCmd (w : Nat) (present : Bool) (len : Nat) :
    cmdPresent w (encodeCmd w present len) = present := by
  rw [cmdPresent, Bits.bit, encodeCmd, BitVec.getLsbD_append]
  simp

/-- R94: the low `LENW` bits read back as `LEN` where it fits them. -/
theorem cmdLen_encodeCmd {w len : Nat} (present : Bool) (h : len < 2 ^ w) :
    cmdLen w (encodeCmd w present len) = len := by
  simp only [cmdLen, encodeCmd, BitVec.toNat_append, BitVec.toNat_ofNat]
  rw [Nat.mod_eq_of_lt h, ← Nat.shiftLeft_add_eq_or_of_lt h, Nat.shiftLeft_eq, Nat.mul_add_mod_self_right,
    Nat.mod_eq_of_lt h]

theorem decode_encodeCmd (b : Build) (present : Bool) {len : Nat} (h : len < 2 ^ b.lenW) :
    decode b .start (encodeCmd b.lenW present len) = .ok (.decode present len) := by
  have hwidth : (encodeCmd b.lenW present len).width = 1 + b.lenW := rfl
  rw [decode, if_pos hwidth, cmdPresent_encodeCmd, cmdLen_encodeCmd _ h]

/-- Settles O2: only `DECODE` has bits to read back; on the other operations well-formedness is what the decoder tests. -/
theorem decodeInvertsEncode : Obligations.DecodeInvertsEncode := by
  intro b i hwf
  cases i with
  | decode present len => exact decode_encodeCmd b present (of_decide_eq_true hwf)
  | skip | unpack | drop => rfl
  | unpackD40 | unpackW32 | norm | cvt | emit => exact if_pos (of_decide_eq_true hwf)

/-- Settles O1: the command words are read by evaluation, and the two worked units through the fields of R145 and R146. -/
theorem writtenWordsDecode : Obligations.WrittenWordsDecode := by
  refine ⟨rfl, rfl, rfl, rfl, rfl, ?_, ?_, ?_⟩
  · rw [Machine.unpackUnit_fmtD40]
    decide
  · rw [Machine.unpackUnit_fmtW32]
    decide
  · rw [Machine.unpackUnit_fmtW32]
    decide

end Sys2Proof

namespace Sys2Proof.Machine

/-! ### The number of units (R87, R111) -/

/-- R111: a buffer that reaches the end of `n` units and not of one more holds `n`. -/
theorem unitsOf_eq_of_bounds {f : WireFormat} {l n : Nat} (hG : 1 ≤ f.G) (hlow : f.H + n * f.G + f.T ≤ l)
    (hhigh : l < f.H + n * f.G + f.G + f.T) : unitsOf f l = n := by
  have hnot : ¬ n < unitsOf f l := by
    rw [lt_unitsOf_iff hG]
    omega
  cases n with
  | zero => omega
  | succ m =>
    have hm : m < unitsOf f l := by
      rw [lt_unitsOf_iff hG]
      rw [Nat.succ_mul] at hlow
      omega
    omega

theorem unitsOf_eq_iff {f : WireFormat} {l n : Nat} (hG : 1 ≤ f.G) (hn : 1 ≤ n) :
    unitsOf f l = n ↔ f.H + n * f.G + f.T ≤ l ∧ l < f.H + n * f.G + f.G + f.T := by
  refine ⟨?_, fun ⟨hlow, hhigh⟩ => unitsOf_eq_of_bounds hG hlow hhigh⟩
  rintro rfl
  have hend := (lt_unitsOf_iff hG l (unitsOf f l)).not.mp (Nat.lt_irrefl _)
  exact ⟨unitsOf_mul_le hn, by omega⟩

/-- Settles O25: `10*S <= 8*G` leaves the divisors 1 and 2 of 286 for `S`, and 512 bytes hold 286 or 143 units only of at
most 1 or 3 bytes. -/
theorem goldenCountEquation : Obligations.GoldenCountEquation := by
  refine ⟨fun f hf hG8 => ?_, by decide, by decide⟩
  obtain ⟨-, hG, hS, -⟩ := f.wf_facts hf
  have hfit := f.ten_mul_S_le hf
  rw [countOf]
  constructor
  · intro hcount
    have hpos : 1 ≤ unitsOf f 512 := Nat.pos_of_ne_zero fun h0 => by simp [h0] at hcount
    obtain ⟨hlow, hhigh⟩ := (unitsOf_eq_iff hG hpos).mp rfl
    have hS6 : f.S ≤ 6 := by omega
    have hdiv : f.S = 1 ∨ f.S = 2 := by
      have hdvd : f.S ∣ 286 := ⟨_, hcount.symm⟩
      interval_cases f.S <;> omega
    rcases hdiv with h1 | h2
    · have hunits : unitsOf f 512 = 286 := by simpa [h1] using hcount
      rw [hunits] at hlow
      omega
    · have hunits : unitsOf f 512 = 143 := by
        rw [h2] at hcount
        omega
      rw [hunits] at hlow hhigh
      omega
  · rintro ⟨hG3, hS2, hlow, hhigh⟩
    have hunits : unitsOf f 512 = 143 := unitsOf_eq_of_bounds hG (by omega) (by omega)
    rw [hS2, hunits]


/-! ### A written listing (R97) -/

theorem linesBytes_cons {f : WireFormat} {l : Line} {ls : List Line} {b bs : List Byte} (hl : l.bytes f = some b)
    (hls : linesBytes f ls = some bs) : linesBytes f (l :: ls) = some (b ++ bs) := by
  simp [linesBytes, hl, hls]

theorem linesBytes_append {f : WireFormat} {ls ms : List Line} {bs cs : List Byte} (hls : linesBytes f ls = some bs)
    (hms : linesBytes f ms = some cs) : linesBytes f (ls ++ ms) = some (bs ++ cs) := by
  induction ls generalizing bs with
  | nil =>
    cases hls
    exact hms
  | cons l ls ih =>
    simp only [linesBytes] at hls
    split at hls
    · rename_i b bs' hb hbs'
      cases hls
      rw [List.append_assoc]
      exact linesBytes_cons hb (ih hbs')
    · cases hls

/-- The bytes of each written unit, in order. -/
def writtenUnits (f : WireFormat) (units : List (List Raw10 × Nat)) : List (List Byte) :=
  units.map fun x => unitBytes f.G (packUnit f x.1 x.2)

theorem linesBytes_units {f : WireFormat} {units : List (List Raw10 × Nat)} (h : ∀ x ∈ units, x.1.length = f.S) :
    linesBytes f (units.map fun x => .unit x.1 x.2) = some (writtenUnits f units).flatten := by
  induction units with
  | nil => rfl
  | cons x units ih =>
    obtain ⟨hx, hrest⟩ := List.forall_mem_cons.mp h
    exact linesBytes_cons (if_pos hx) (ih hrest)

theorem length_of_mem_writtenUnits {f : WireFormat} {units : List (List Raw10 × Nat)} {b : List Byte}
    (h : b ∈ writtenUnits f units) : b.length = f.G := by
  obtain ⟨x, -, rfl⟩ := List.mem_map.mp h
  exact unitBytes_length _ _

section WrittenBuffer
variable {f : WireFormat} {hdr : List Byte} {units : List (List Raw10 × Nat)}

/-- R83: the wire units of a buffer with written units after its header are the packed ones. -/
theorem unitAt_writtenUnits (hh : hdr.length = f.H) (rest : List Byte) {k : Nat} (hk : k < units.length) :
    unitAt f (hdr ++ ((writtenUnits f units).flatten ++ rest)) k = packUnit f units[k].1 units[k].2 := by
  have hblock := take_drop_flatten_of_blocks (fun _ => length_of_mem_writtenUnits (f := f) (units := units))
    (k := k) (by simpa [writtenUnits] using hk) rest
  rw [unitAt, ← hh, ← List.drop_drop, List.drop_left, hblock]
  simp only [writtenUnits, List.getElem_map]
  exact joinBytes_unitBytes rfl

/-- R111: a tail shorter than a unit adds none. -/
theorem unitsOf_writtenUnits (hG : 1 ≤ f.G) (hh : hdr.length = f.H) {tail trl : List Byte} (ht : trl.length = f.T)
    (htail : tail.length < f.G) :
    unitsOf f (hdr ++ ((writtenUnits f units).flatten ++ (tail ++ trl))).length = units.length := by
  have hlen := length_flatten_of_blocks (fun _ => length_of_mem_writtenUnits (f := f) (units := units))
  have hnum : (writtenUnits f units).length = units.length := List.length_map _
  rw [hnum] at hlen
  simp only [List.length_append, hlen, hh, ht]
  exact unitsOf_eq_of_bounds hG (by omega) (by omega)

/-- R110, R147: decoding written units gives the words of their samples in order. -/
theorem decodeBuf_writtenUnits (hf : f.wf = true) (hunits : ∀ x ∈ units, x.1.length = f.S)
    (hh : hdr.length = f.H) {tail trl : List Byte} (ht : trl.length = f.T) (htail : tail.length < f.G) :
    decodeBuf f (hdr ++ ((writtenUnits f units).flatten ++ (tail ++ trl))) =
      (units.flatMap fun x => x.1).map sampleWord := by
  obtain ⟨-, hG, -⟩ := f.wf_facts hf
  rw [decodeBuf, unitsOf_writtenUnits hG hh ht htail, List.map_flatMap, List.flatMap_def, List.flatMap_def]
  congr 1
  refine List.ext_getElem (by simp) fun k _ hk => ?_
  have hk' : k < units.length := by simpa using hk
  simp only [List.getElem_map, List.getElem_range, unitWords, unitAt_writtenUnits hh _ hk']
  rw [unpackUnit_packUnit hf (hunits _ (List.getElem_mem hk'))]

end WrittenBuffer

/-- R97: header, units, tail and trailer assemble to their bytes, one after the other. -/
theorem linesBytes_listing {f : WireFormat} {hdr trl : List Byte} {units : List (List Raw10 × Nat)} (tail : List Byte)
    (hh : hdr.length = f.H) (ht : trl.length = f.T) (hunits : ∀ x ∈ units, x.1.length = f.S) :
    linesBytes f ([.hdr hdr] ++ units.map (fun x => .unit x.1 x.2) ++ [.raw tail, .trl trl]) =
      some (hdr ++ ((writtenUnits f units).flatten ++ (tail ++ trl))) := by
  have htrl : linesBytes f [.trl trl] = some trl := by simp [linesBytes, Line.bytes, ht]
  rw [List.append_assoc, List.singleton_append]
  exact linesBytes_cons (if_pos hh) (linesBytes_append (linesBytes_units hunits) (linesBytes_cons rfl htrl))

/-- Settles O26: the listing's bytes hold exactly the written units between header and tail, and each unpacks to the
samples it was packed from. -/
theorem listingDecodes : Obligations.ListingDecodes := by
  intro f hdr tail trl units hf hh ht htail hunits
  refine ⟨_, ?_, decodeBuf_writtenUnits hf hunits hh ht htail⟩
  simp only [Listing.assemble, linesBytes_listing tail hh ht hunits, Bool.false_eq_true, if_false]


/-! ### What a step runs (R96, R112, R115) -/

theorem runOp_of_fault {i : Instr} {s s1 : State} {e : Fault} (h1 : fetchOperand i s = .ok s1)
    (h2 : exec i s1 = .fault e) : runOp i s = .fault e := by
  simp [runOp, h1, h2]

theorem runOp_of_refused {i : Instr} {s s1 : State} {r : Refusal} (h1 : fetchOperand i s = .ok s1)
    (h2 : exec i s1 = .refused r) : runOp i s = .refused r := by
  simp [runOp, h1, h2]

theorem blockStep_of_decode {s : State} {i : Instr} (hr : s.phase = .run)
    (hi : decode s.build (selected s) ⟨0, 0#0⟩ = .ok i) : blockStep s = runOp i s := by
  simp [blockStep, hr, hi]

/-- Log 2: a `wait` is a step without a move. -/
theorem step_wait {s : State} (hb : s.build.wf = true) (hh : s.host = []) :
    step { s with host := [.wait] } = step s := by
  have hs : setHost [] { s with host := [.wait] } = s := by rw [setHost, ← hh]
  have hwait := step_of_host (s := { s with host := [.wait] }) hb rfl
  rw [hwait, hs, step_of_block hb hh, hostMove]

/-- Settles O38: with no move of the host the step is `runOp` of the decoded operation, and `runOp` answers as `exec`
does. -/
theorem stepRunsSelectedOperation : Obligations.StepRunsSelectedOperation := by
  intro s s1 i hb hr hh hi hload
  have hstep : step s = runOp i s := (step_of_block hb hh).trans (blockStep_of_decode hr hi)
  rw [step_wait hb hh, hstep]
  exact ⟨fun _ => runOp_of hload, fun _ => runOp_of_fault hload, fun _ => runOp_of_refused hload, rfl⟩

/-- Settles O39: the word of a `START` decodes to a `DECODE`, which the sequencer runs with nothing around it. -/
theorem stepRunsStart : Obligations.StepRunsStart := by
  intro s cmd rest i hb hhost hi
  obtain ⟨p, len, rfl⟩ := decode_start hi
  rw [step_of_host hb hhost, hostMove, setHost_build, hi]
  exact runOp_decode p len (setHost rest s)


/-! ### The order of the sequencer (R96, R115) -/

section SelectedAt
variable {s : State}

theorem selected_skip (hg : s.stage = .skip) : selected s = .skip := by simp [selected, hg]

theorem selected_unit (hg : s.stage = .unit) :
    selected s = if unitRemains s then unpackRow s.build.fmt else .drop := by simp [selected, hg]

theorem selected_norm {j : Nat} (hg : s.stage = .norm j) : selected s = .norm j := by simp [selected, hg]

theorem selected_cvt {j : Nat} (hg : s.stage = .cvt j) : selected s = .cvt j := by simp [selected, hg]

theorem selected_emit {j : Nat} (hg : s.stage = .emit j) : selected s = .emit j := by simp [selected, hg]

theorem selected_unpackRow (hg : s.stage = .unit) (hu : s.pos + s.build.fmt.G + s.build.fmt.T ≤ s.len) :
    selected s = unpackRow s.build.fmt := by
  rw [selected_unit hg, if_pos ((unitRemains_iff s).mpr hu)]

theorem selected_drop (hg : s.stage = .unit) (hu : s.len < s.pos + s.build.fmt.G + s.build.fmt.T) :
    selected s = .drop := by
  rw [selected_unit hg, if_neg fun h => Nat.not_le.mpr hu ((unitRemains_iff s).mp h)]

end SelectedAt

/-- Log 13: the row for `UNPACK` is the reference row on exactly the two reference formats. -/
theorem unpackRow_cases (f : WireFormat) :
    (f = Config.fmtD40 → unpackRow f = .unpackD40) ∧ (f = Config.fmtW32 → unpackRow f = .unpackW32) ∧
      (f ≠ Config.fmtD40 → f ≠ Config.fmtW32 → unpackRow f = .unpack) := by
  refine ⟨fun h => if_pos h, fun h => ?_, fun h1 h2 => ?_⟩
  · subst h
    decide
  · rw [unpackRow, if_neg h1, if_neg h2]

theorem advance_norm_of_lt {j : Nat} (s : State) (h : j + 1 < s.build.fmt.S) :
    advance (.norm j) s = setStage (.norm (j + 1)) s := by simp [advance, h]

theorem advance_norm_last {j : Nat} (s : State) (h : ¬ j + 1 < s.build.fmt.S) :
    advance (.norm j) s = setStage (.cvt 0) s := by simp [advance, h]

theorem advance_cvt_of_lt {j : Nat} (s : State) (h : j + 1 < s.build.fmt.S) :
    advance (.cvt j) s = setStage (.cvt (j + 1)) s := by simp [advance, h]

theorem advance_cvt_last {j : Nat} (s : State) (h : ¬ j + 1 < s.build.fmt.S) :
    advance (.cvt j) s = setStage (.emit 0) s := by simp [advance, h]

/-- Settles O40, by the stage for what is selected and by the lane against `S` for where the sequencer goes. -/
theorem sequencerOrder : Obligations.SequencerOrder := by
  intro s
  refine ⟨selected_skip, fun hg hu => ?_, selected_drop, fun _ => selected_norm, fun _ => selected_cvt,
    fun _ => selected_emit, rfl, fun i hi => advance_unpackRow hi s, fun j hj => ?_, fun j hj => ?_⟩
  · rw [selected_unpackRow hg hu]
    exact unpackRow_cases s.build.fmt
  · exact ⟨advance_norm_of_lt s hj, advance_cvt_of_lt s hj, advance_emit_of_lt s hj⟩
  · have hlast : ¬ j + 1 < s.build.fmt.S := by omega
    exact ⟨advance_norm_last s hlast, advance_cvt_last s hlast, advance_emit_last s hlast⟩

end Sys2Proof.Machine
end

section
/-! The function `decode(fmt, BUF)` (`40_decode.md` R110, R111): its length, its words, and its laws R123 to R129. -/

namespace Sys2Proof.Machine

/-! ### Its words, one by one (R110, R111) -/

section Words
variable {f : WireFormat}

theorem unitWords_length_of_wf (hf : f.wf = true) (buf : List Byte) (k : Nat) : (unitWords f buf k).length = f.S := by
  rw [unitWords, List.length_map, unpackUnit_length_of_wf hf]

/-- R111: `S` words for every complete unit. -/
theorem decodeBuf_length (hf : f.wf = true) (buf : List Byte) : (decodeBuf f buf).length = countOf f buf.length := by
  rw [decodeBuf, flatMap_range_length _ f.S _ (unitWords_length_of_wf hf buf), countOf, Nat.mul_comm]

/-- R110: word `k*S + j` of the result is word `j` of unit `k`. -/
theorem decodeBuf_getElem? (hf : f.wf = true) {buf : List Byte} {k j : Nat} (hk : k < unitsOf f buf.length)
    (hj : j < f.S) : (decodeBuf f buf)[k * f.S + j]? = (unitWords f buf k)[j]? :=
  flatMap_range_getElem? _ _ _ _ _ (unitWords_length_of_wf hf buf) hk hj

theorem mem_decodeBuf {buf : List Byte} {w : F64} (h : w ∈ decodeBuf f buf) :
    ∃ k, k < unitsOf f buf.length ∧ ∃ lane ∈ f.lane, w = sampleWord (unpackLane (unitAt f buf k) lane) := by
  obtain ⟨k, hk, hw⟩ := List.mem_flatMap.mp h
  obtain ⟨r, hr, rfl⟩ := List.mem_map.mp hw
  obtain ⟨lane, hlane, rfl⟩ := List.mem_map.mp hr
  exact ⟨k, List.mem_range.mp hk, lane, hlane, rfl⟩

/-- R83: a complete unit lies inside the buffer. -/
theorem unit_le_of_lt_unitsOf (hf : f.wf = true) {l k : Nat} (hk : k < unitsOf f l) : f.H + k * f.G + f.G ≤ l := by
  obtain ⟨-, hG, -⟩ := f.wf_facts hf
  have hend := (lt_unitsOf_iff hG l k).mp hk
  omega

theorem unitsOf_of_le {l : Nat} (h : f.H + f.T ≤ l) : unitsOf f l = (l - f.H - f.T) / f.G := if_pos h

theorem unitsOf_of_lt {l : Nat} (h : l < f.H + f.T) : unitsOf f l = 0 := if_neg (Nat.not_le.mpr h)

/-- R126: without room for one unit between header and trailer there is none. -/
theorem unitsOf_of_lt_one_unit (hf : f.wf = true) {l : Nat} (h : l < f.H + f.G + f.T) : unitsOf f l = 0 := by
  obtain ⟨-, hG, -⟩ := f.wf_facts hf
  have hnot := (lt_unitsOf_iff hG l 0).not.mpr (by omega)
  omega

end Words

/-- Settles O16: R111's two cases are the branches of `unitsOf`, and every unit gives `S` words. -/
theorem decodeLength : Obligations.DecodeLength := by
  intro f buf hf
  refine ⟨unitsOf_of_le, unitsOf_of_lt, rfl, fun hH hT => ?_, decodeBuf_length hf buf⟩
  rw [unitsOf_of_le (by omega), hH, hT]
  rfl

/-- Settles O21: a buffer shorter than `H + G + T` has no complete unit, and the empty buffer is one. -/
theorem shortBufferEmpty : Obligations.ShortBufferEmpty := by
  intro f hf
  have hshort : ∀ buf : List Byte, buf.length < f.H + f.G + f.T → decodeBuf f buf = [] := fun buf h => by
    rw [decodeBuf, unitsOf_of_lt_one_unit hf h]
    rfl
  obtain ⟨-, hG, -⟩ := f.wf_facts hf
  exact ⟨hshort [] (by rw [List.length_nil]; omega), hshort⟩


/-! ### Buffers that begin alike (R123, R124) -/

theorem flatMap_range_prefix {α : Type} {g h : Nat → List α} {m n : Nat} (hmn : m ≤ n) (heq : ∀ k, k < m → g k = h k) :
    (List.range m).flatMap g <+: (List.range n).flatMap h := by
  obtain ⟨d, rfl⟩ := Nat.exists_eq_add_of_le hmn
  rw [List.range_add, List.flatMap_append, List.flatMap_congr fun k hk => heq k (List.mem_range.mp hk)]
  exact List.prefix_append _ _

/-- A unit that lies in the beginning of a buffer is the buffer's unit. -/
theorem unitAt_prefix {f : WireFormat} {p b : List Byte} (h : p <+: b) {k : Nat}
    (hk : f.H + k * f.G + f.G ≤ p.length) : unitAt f p k = unitAt f b k := by
  obtain ⟨c, rfl⟩ := h
  rw [unitAt, unitAt, List.drop_append_of_le_length (by omega),
    List.take_append_of_le_length (by rw [List.length_drop]; omega)]

/-- R123: the beginning of a buffer has no more units, and the units it has are the buffer's. -/
theorem decodeBuf_prefix {f : WireFormat} (hf : f.wf = true) {p b : List Byte} (h : p <+: b) :
    decodeBuf f p <+: decodeBuf f b :=
  flatMap_range_prefix (unitsOf_mono f h.length_le) fun k hk => by
    rw [unitWords, unitWords, unitAt_prefix h (unit_le_of_lt_unitsOf hf hk)]

/-- Settles O18, by the number of units and by their words. -/
theorem prefixLaw : Obligations.PrefixLaw := fun f _ _ hf h =>
  ⟨Nat.mul_le_mul_left f.S (unitsOf_mono f h.length_le), decodeBuf_prefix hf h⟩

section Truncation
variable {f : WireFormat}

/-- R124: fewer than `G` more bytes complete at most one more unit. -/
theorem unitsOf_add_le {l x : Nat} (hf : f.wf = true) (hx : x < f.G) : unitsOf f (l + x) ≤ unitsOf f l + 1 := by
  obtain ⟨-, hG, -⟩ := f.wf_facts hf
  by_contra hlt
  have hmore := (lt_unitsOf_iff hG (l + x) (unitsOf f l + 1)).mp (Nat.not_le.mp hlt)
  have hend := (lt_unitsOf_iff hG l (unitsOf f l)).not.mp (Nat.lt_irrefl _)
  rw [Nat.succ_mul] at hmore
  omega

/-- R124: from a unit boundary fewer than `G` bytes complete no unit. -/
theorem unitsOf_add_eq {l x : Nat} (hf : f.wf = true) (hx : x < f.G)
    (hl : l ≤ f.H + f.T ∨ (l - f.H - f.T) % f.G = 0) : unitsOf f (l + x) = unitsOf f l := by
  obtain ⟨-, hG, -⟩ := f.wf_facts hf
  by_cases hle : l ≤ f.H + f.T
  · rw [unitsOf_of_lt_one_unit hf (by omega), unitsOf_of_lt_one_unit hf (by omega)]
  · have hmod := hl.resolve_left hle
    have hwhole : unitsOf f l * f.G = l - f.H - f.T := by
      rw [unitsOf_of_le (by omega), Nat.div_mul_cancel (Nat.dvd_of_mod_eq_zero hmod)]
    exact unitsOf_eq_of_bounds hG (by omega) (by omega)

end Truncation

/-- Settles O19: the first two clauses count units, and the third is R123 for the buffer before the appended bytes. -/
theorem truncationLaw : Obligations.TruncationLaw := by
  intro f b x hf hx
  refine ⟨?_, fun hl => ?_, decodeBuf_prefix hf (List.prefix_append b x)⟩
  · rw [List.length_append]
    exact unitsOf_add_le hf hx
  · rw [List.length_append, countOf, countOf, unitsOf_add_eq hf hx hl]


/-! ### Which bits a word depends on (R128, R129) -/

/-- R128: a sample depends only on its lane's bits of the unit, bit `p` of which is in byte `G - 1 - p div 8`. -/
theorem unpackLane_unitAt_congr {f : WireFormat} (hf : f.wf = true) {b b' : List Byte} (hlen : b.length = b'.length)
    {k : Nat} (hk : k < unitsOf f b.length) {lane : List Nat} (hlane : lane ∈ f.lane)
    (h : ∀ p ∈ lane, (b.getD (f.H + k * f.G + (f.G - 1 - p / 8)) 0).getLsbD (p % 8) =
      (b'.getD (f.H + k * f.G + (f.G - 1 - p / 8)) 0).getLsbD (p % 8)) :
    unpackLane (unitAt f b k) lane = unpackLane (unitAt f b' k) lane := by
  obtain ⟨-, -, -, -, hten, hrange, -⟩ := f.wf_facts hf
  have hend := unit_le_of_lt_unitsOf hf hk
  refine unpackLane_congr (hten lane hlane) fun p hp => ?_
  have hp8 := hrange lane hlane p hp
  rw [unitAt_bit hend p hp8, unitAt_bit (hlen ▸ hend) p hp8]
  exact h p hp

/-- Settles O23: unit by unit and lane by lane, the two buffers unpack to the same samples. -/
theorem ignoredBitsIndependence : Obligations.IgnoredBitsIndependence := by
  intro f b b' hf hlen h
  rw [decodeBuf, decodeBuf, ← hlen]
  refine List.flatMap_congr fun k hk => ?_
  have hk' := List.mem_range.mp hk
  refine congrArg (List.map sampleWord) (List.map_congr_left fun lane hlane => ?_)
  exact unpackLane_unitAt_congr hf hlen hk' hlane (h k hk' lane hlane)

/-- Word `j` of unit `k` is the word of lane `j`. -/
theorem unitWords_getElem? (f : WireFormat) (buf : List Byte) {k j : Nat} (hj : j < f.lane.length) :
    (unitWords f buf k)[j]? = some (sampleWord (unpackLane (unitAt f buf k) f.lane[j])) := by
  simp [unitWords, unpackUnit, hj]

/-- Settles O24: word `n` is lane `n mod S` of unit `n div S`; past the last unit both results have ended. -/
theorem localityLaw : Obligations.LocalityLaw := by
  intro f b b' n hf hlen h
  obtain ⟨-, -, hS, hlanes, -⟩ := f.wf_facts hf
  by_cases hn : n < countOf f b.length
  · have hk : n / f.S < unitsOf f b.length := Nat.div_lt_of_lt_mul hn
    have hj : n % f.S < f.S := Nat.mod_lt _ hS
    have hj' : n % f.S < f.lane.length := hlanes.symm ▸ hj
    have hsplit : n = n / f.S * f.S + n % f.S := (Nat.div_add_mod' n f.S).symm
    have hsame : unpackLane (unitAt f b (n / f.S)) f.lane[n % f.S] =
        unpackLane (unitAt f b' (n / f.S)) f.lane[n % f.S] := by
      rw [List.getD_eq_getElem _ _ hj'] at h
      exact unpackLane_unitAt_congr hf hlen hk (List.getElem_mem hj') h
    calc (decodeBuf f b)[n]?
        = (decodeBuf f b)[n / f.S * f.S + n % f.S]? := by rw [← hsplit]
      _ = (unitWords f b (n / f.S))[n % f.S]? := decodeBuf_getElem? hf hk hj
      _ = (unitWords f b' (n / f.S))[n % f.S]? := by
          rw [unitWords_getElem? f b hj', unitWords_getElem? f b' hj', hsame]
      _ = (decodeBuf f b')[n / f.S * f.S + n % f.S]? := (decodeBuf_getElem? hf (hlen ▸ hk) hj).symm
      _ = (decodeBuf f b')[n]? := by rw [← hsplit]
  · have hle : (decodeBuf f b).length ≤ n := by
      rw [decodeBuf_length hf]
      omega
    have hle' : (decodeBuf f b').length ≤ n := by rwa [decodeBuf_length hf, ← hlen, ← decodeBuf_length hf]
    rw [List.getElem?_eq_none hle, List.getElem?_eq_none hle']


/-! ### Uniform buffers (R127) -/

/-- A unit whose lane bits all have one value unpacks to a sample of that value in every bit. -/
theorem unpackLane_of_bits {u : Bits} {lane : List Nat} {c : Bool} (hten : lane.length = 10)
    (h : ∀ p ∈ lane, u.bit p = c) {b : Nat} (hb : b < 10) : (unpackLane u lane).getLsbD b = c := by
  have hi : 9 - b < lane.length := by omega
  rw [unpackLane_getLsbD _ _ _ hb, List.getD_eq_getElem _ _ hi]
  exact h _ (List.getElem_mem hi)

/-- A buffer of one byte whose bits are all `c` gives samples whose bits are all `c`. -/
theorem mem_decodeBuf_uniform {f : WireFormat} (hf : f.wf = true) {buf : List Byte} {x : Byte} {c : Bool}
    (hx : ∀ i, i < 8 → x.getLsbD i = c) (hbuf : ∀ b ∈ buf, b = x) {w : F64} (hw : w ∈ decodeBuf f buf) :
    ∃ r : Raw10, w = sampleWord r ∧ ∀ i, i < 10 → r.getLsbD i = c := by
  obtain ⟨-, -, -, -, hten, hrange, -⟩ := f.wf_facts hf
  obtain ⟨k, hk, lane, hlane, rfl⟩ := mem_decodeBuf hw
  have hend := unit_le_of_lt_unitsOf hf hk
  refine ⟨_, rfl, fun i hi => unpackLane_of_bits (hten lane hlane) (fun p hp => ?_) hi⟩
  have hp8 := hrange lane hlane p hp
  have hin : f.H + k * f.G + (f.G - 1 - p / 8) < buf.length := by omega
  rw [unitAt_bit hend p hp8, List.getD_eq_getElem _ _ hin, hbuf _ (List.getElem_mem hin)]
  exact hx _ (Nat.mod_lt _ (by decide))

/-- Settles O22: the samples are 0 or 1023 throughout, whose words are the two of R127. -/
theorem uniformBuffers : Obligations.UniformBuffers := by
  intro f buf hf
  constructor
  · intro hbuf w hw
    obtain ⟨r, rfl, hr⟩ := mem_decodeBuf_uniform (c := false) hf (by decide) hbuf hw
    obtain rfl : r = 0#10 := BitVec.eq_of_getLsbD_eq fun i hi => by rw [hr i hi, BitVec.getLsbD_zero]
    decide
  · intro hbuf w hw
    obtain ⟨r, rfl, hr⟩ := mem_decodeBuf_uniform (c := true) hf (by decide) hbuf hw
    obtain rfl : r = BitVec.allOnes 10 := BitVec.eq_of_getLsbD_eq fun i hi => by
      rw [hr i hi, BitVec.getLsbD_allOnes, decide_eq_true hi]
    decide

end Sys2Proof.Machine
end

section
/-! The value of a result word (`30_encoding.md` R95, `43_convert.md` R176), and the range of the result (`40_decode.md`
R125). -/

namespace Sys2Proof

/-! ### The fields of `F64` (R95) -/

theorem f64Sign_f64Make (s : Bool) (e : BitVec 11) (f : BitVec 52) : f64Sign (f64Make s e f) = s := by
  rw [f64Sign, f64Make, BitVec.getLsbD_append, BitVec.getLsbD_append]
  simp

theorem f64Exp_f64Make (s : Bool) (e : BitVec 11) (f : BitVec 52) : f64Exp (f64Make s e f) = e :=
  BitVec.eq_of_getLsbD_eq fun i hi => by
    rw [f64Exp, f64Make, BitVec.getLsbD_extractLsb', BitVec.getLsbD_append, BitVec.getLsbD_append]
    simp [hi]

theorem f64Frac_f64Make (s : Bool) (e : BitVec 11) (f : BitVec 52) : f64Frac (f64Make s e f) = f :=
  BitVec.eq_of_getLsbD_eq fun i hi => by
    rw [f64Frac, f64Make, BitVec.getLsbD_extractLsb', BitVec.getLsbD_append]
    simp [hi]

end Sys2Proof

namespace Sys2Proof.Machine

/-! ### The value of a word of `CVT` (R176) -/

/-- R95: the value of a normal number with at least one bit after the binary point. -/
theorem f64Value_f64Make {s : Bool} {e f : Nat} (he : 1 ≤ e) (he' : e < 1075) (hf : f < 2 ^ 52) :
    f64Value (f64Make s (BitVec.ofNat 11 e) (BitVec.ofNat 52 f)) =
      some (mkRat ((if s then -1 else 1) * (2 ^ 52 + f : Nat)) (2 ^ (1075 - e))) := by
  have hexp : (BitVec.ofNat 11 e).toNat = e := by rw [BitVec.toNat_ofNat, Nat.mod_eq_of_lt (by omega)]
  have hfrac : (BitVec.ofNat 52 f).toNat = f := by rw [BitVec.toNat_ofNat, Nat.mod_eq_of_lt hf]
  have h0 : e ≠ 0 := by omega
  have h2047 : e ≠ 2047 := by omega
  have h1075 : ¬ 1075 ≤ e := by omega
  simp only [f64Value, f64Sign_f64Make, f64Exp_f64Make, f64Frac_f64Make, hexp, hfrac, if_neg h0, if_neg h2047,
    if_neg h1075]

/-- R175: a fraction left-aligned below its leading one, at weight `2^p`, stands for the magnitude. -/
theorem leadingOne_add_fraction {m p : Nat} (hlow : 2 ^ p ≤ m) (hp : p ≤ 52) :
    2 ^ 52 + (m - 2 ^ p) * 2 ^ (52 - p) = m * 2 ^ (52 - p) := by
  rw [Nat.sub_mul, ← pow_add, Nat.add_sub_cancel' hp]
  have hle : 2 ^ 52 ≤ m * 2 ^ (52 - p) := by
    calc 2 ^ 52 = 2 ^ p * 2 ^ (52 - p) := by rw [← pow_add, Nat.add_sub_cancel' hp]
      _ ≤ m * 2 ^ (52 - p) := Nat.mul_le_mul_right _ hlow
  omega

/-- R175: the fraction of a magnitude below `2^(p+1)` fits its 52 bits. -/
theorem fraction_lt {m p : Nat} (hhigh : m < 2 ^ (p + 1)) (hp : p ≤ 52) : (m - 2 ^ p) * 2 ^ (52 - p) < 2 ^ 52 := by
  rw [pow_succ] at hhigh
  have hpos : 0 < 2 ^ p := by positivity
  calc (m - 2 ^ p) * 2 ^ (52 - p) < 2 ^ p * 2 ^ (52 - p) := Nat.mul_lt_mul_of_pos_right (by omega) (by positivity)
    _ = 2 ^ 52 := by rw [← pow_add, Nat.add_sub_cancel' hp]

theorem sign_mul_natAbs (n : Int) : (if decide (n < 0) = true then -1 else 1) * (n.natAbs : Int) = n := by
  simp only [decide_eq_true_eq]
  split <;> omega

/-- R176: the exponent `1013 + p` and the left-aligned fraction give exactly the fixed-point number's value. -/
theorem f64Value_cvtFn (x : Fx10) : f64Value (cvtFn x) = some ((x.toInt : Rat) / 1024) := by
  by_cases h0 : x.toInt = 0
  · simp only [cvtFn, h0, Int.cast_zero, zero_div]
    decide
  have hbound : x.toInt.natAbs ≤ 512 := by
    have hhigh := BitVec.toInt_lt (x := x)
    have hlow := BitVec.le_toInt (x := x)
    omega
  obtain ⟨m, hm⟩ : ∃ m, m = x.toInt.natAbs := ⟨_, rfl⟩
  obtain ⟨p, hp⟩ : ∃ p, p = Nat.log2 m := ⟨_, rfl⟩
  have hm0 : m ≠ 0 := hm ▸ Int.natAbs_ne_zero.mpr h0
  have hp10 : p < 10 := hp ▸ (Nat.log2_lt hm0).mpr (by omega)
  have hlow : 2 ^ p ≤ m := hp ▸ Nat.log2_self_le hm0
  have hsum := leadingOne_add_fraction hlow (by omega)
  have hfrac := fraction_lt (hp ▸ Nat.lt_log2_self : m < 2 ^ (p + 1)) (by omega)
  have hden : 1075 - (1013 + p) = 10 + (52 - p) := by omega
  simp only [cvtFn, if_neg h0, ← hm, ← hp]
  rw [f64Value_f64Make (by omega) (by omega) hfrac, hsum, hden, Rat.mkRat_eq_div]
  congr 1
  have hne : (2 : Rat) ^ (52 - p) ≠ 0 := by positivity
  have hsign := sign_mul_natAbs x.toInt
  rw [← hm] at hsign
  rw [Nat.cast_mul, ← mul_assoc, hsign]
  push_cast
  rw [pow_add, mul_div_mul_right _ _ hne]
  norm_num

/-- R161: inverting bit 9 subtracts 512, in the signed reading. -/
theorem normFn_toInt (r : Raw10) : (normFn r).toInt = (r.toNat : Int) - 512 := by
  have hlt := r.isLt
  have hkeep : (r.toNat ^^^ 512) % 512 = r.toNat % 512 := by
    simpa using Nat.xor_mod_two_pow (a := r.toNat) (b := 512) (n := 9)
  have hflip : (r.toNat ^^^ 512) / 512 = r.toNat / 512 ^^^ 1 := Nat.xor_div_two_pow (b := 512) (n := 9)
  have hbit : r.toNat / 512 = 0 ∨ r.toNat / 512 = 1 := by omega
  rw [normFn, BitVec.toInt_eq_toNat_cond, BitVec.toNat_xor, BitVec.toNat_ofNat]
  rcases hbit with h | h <;> simp [h] at hflip ⊢ <;> omega

/-- R177: the value of `CVT(NORM(r))`. -/
theorem f64Value_sampleWord (r : Raw10) : f64Value (sampleWord r) = some (((r.toNat : Rat) - 512) / 1024) := by
  rw [sampleWord, f64Value_cvtFn, normFn_toInt]
  norm_num

/-- Settles O20: every word is that of a raw sample `r`, whose value lies in the range because `0 <= r <= 1023`. -/
theorem rangeLaw : Obligations.RangeLaw := by
  intro f buf w _ hw
  obtain ⟨k, -, lane, -, rfl⟩ := mem_decodeBuf hw
  generalize unpackLane (unitAt f buf k) lane = r at hw ⊢
  have hlow : (0 : Rat) ≤ r.toNat := Nat.cast_nonneg _
  have hhigh : (r.toNat : Rat) ≤ 1023 := by exact_mod_cast Nat.le_of_lt_succ r.isLt
  exact ⟨r, _, rfl, f64Value_sampleWord r, rfl, by linarith, by linarith⟩

end Sys2Proof.Machine
end

section
/-! The operations of the sequencer (`40_decode.md` R112 to R117): where each is accepted, and what it then answers. -/

namespace Sys2Proof.Machine

section Accepted
variable {s : State}

/-- R112: with the host's promises kept, `DECODE` enters `phase = RUN`. -/
theorem execDecode_accepted {len : Nat} (hr : s.phase ≠ .run) (hin : inHolds s.inMem len = true)
    (hout : countOf s.build.fmt len ≤ s.build.outCap) :
    execDecode true len s = .next (enterRun len (clearResults s)) := by
  simp [execDecode, hr, hin, hout]

/-- R200: without a buffer `DECODE` takes the exception, whatever `LEN` is. -/
theorem execDecode_absent (len : Nat) (hr : s.phase ≠ .run) : execDecode false len s = .next (startBad s) := by
  simp [execDecode, hr, startBad]

theorem execEmit_of_lt {j : Nat} {v : F64} (hv : s.f64[j]? = some v) (hc : s.count < s.build.outCap) :
    execEmit j s = .next (bumpCount (memWrite s.count v s)) := by
  simp [execEmit, emitOperand, readLane_ok.mpr hv, hc]

theorem execEmit_full {j : Nat} {v : F64} (hv : s.f64[j]? = some v) (hc : s.build.outCap ≤ s.count) :
    execEmit j s = .refused .outputFull := by
  simp [execEmit, emitOperand, readLane_ok.mpr hv, hc]

theorem unitRemains_eq_false_iff : unitRemains s = false ↔ s.len < s.pos + s.build.fmt.G + s.build.fmt.T := by
  simp [unitRemains]

theorem execDrop_enabled (hr : s.phase = .run) (hu : unitRemains s = false) : execDrop s = .next (signalDone s) :=
  if_pos ⟨hr, hu⟩

theorem execDrop_not_enabled (h : s.phase ≠ .run ∨ unitRemains s = true) : execDrop s = .refused .dropNotEnabled := by
  refine if_neg fun ⟨hr, hu⟩ => ?_
  rcases h with h | h
  · exact h hr
  · simp [hu] at h

/-- R118: outside `phase = RUN` the block has no step of its own. -/
theorem blockStep_waiting (hr : s.phase ≠ .run) : blockStep s = .next s := by
  unfold blockStep
  split
  · rfl
  · rfl
  · exact absurd ‹_› hr

theorem step_waiting (hb : s.build.wf = true) (hh : s.host = []) (hr : s.phase ≠ .run) : step s = .next s :=
  (step_of_block hb hh).trans (blockStep_waiting hr)

end Accepted

/-- Settles O27: the host's promises of R202 are the tests of `execDecode_accepted`. -/
theorem startAccepted : Obligations.StartAccepted := fun _ _ hr hin hout =>
  execDecode_accepted hr ((inHolds_iff _ _).mpr hin) hout

/-- Settles O30: `pos = H > LEN` leaves no room for a unit, so `DROP` is enabled. -/
theorem skipSetsPos : Obligations.SkipSetsPos := by
  intro s
  refine ⟨rfl, fun hlen => ?_⟩
  have hend : unitRemains { s with pos := s.build.fmt.H } = false := by
    rw [unitRemains_eq_false_iff]
    show s.len < s.build.fmt.H + s.build.fmt.G + s.build.fmt.T
    omega
  refine ⟨hend, fun hr hcount => ?_⟩
  rw [← hcount]
  exact execDrop_enabled hr hend

/-- Settles O37: the two clauses are the two answers of `DROP`. -/
theorem dropEndsTransaction : Obligations.DropEndsTransaction :=
  ⟨fun _ hr hu => execDrop_enabled hr (unitRemains_eq_false_iff.mpr hu),
    fun s h => execDrop_not_enabled (h.imp_right (unitRemains_iff s).mpr)⟩

/-- Settles O41: without a move of the host the step is the block's own, which `IDLE` and `DONE` do not have. -/
theorem waitsForHost : Obligations.WaitsForHost := by
  intro s hb hh hphase
  refine step_waiting hb hh ?_
  rcases hphase with h | h <;> simp [h]

/-- Settles O35: the write at `COUNT` reads back, and reads elsewhere pass over it. -/
theorem emitAppends : Obligations.EmitAppends :=
  ⟨fun s _ v hv hc => ⟨Memory.write s.out s.count v, execEmit_of_lt hv hc, Memory.read_write_same _ _ _,
      fun k => Memory.read_write_other _ _ k v⟩,
    fun _ _ _ hv hc => execEmit_full hv hc.ge⟩

end Sys2Proof.Machine
end

section
/-! The steps of a transaction (`40_decode.md` R115, R118): in every state of the invariant with `phase = RUN` the
sequencer has its step, and no data value decides which (R119). -/

namespace Sys2Proof.Machine

/-! ### The step at each stage, forward -/

/-- R96: the row the sequencer takes at a unit decodes, and it unpacks through `lane` (log 13). -/
theorem exists_unpackRow (b : Build) (w : Bits) : ∃ i, decode b (unpackRow b.fmt) w = .ok i ∧ IsUnpackRow i ∧
    ∀ s : State, s.build = b → exec i s = .next (setRaws (unpackUnit b.fmt s.u) s) := by
  obtain ⟨hD40, hW32, hother⟩ := unpackRow_cases b.fmt
  by_cases h40 : b.fmt = Config.fmtD40
  · refine ⟨.unpackD40, by rw [hD40 h40]; exact if_pos h40, .inr (.inl rfl), fun s hs => ?_⟩
    rw [h40, unpackUnit_fmtD40]
    exact if_pos (hs ▸ h40)
  · by_cases h32 : b.fmt = Config.fmtW32
    · refine ⟨.unpackW32, by rw [hW32 h32]; exact if_pos h32, .inr (.inr rfl), fun s hs => ?_⟩
      rw [h32, unpackUnit_fmtW32]
      exact if_pos (hs ▸ h32)
    · refine ⟨.unpack, by rw [hother h40 h32]; rfl, .inl rfl, fun s hs => ?_⟩
      rw [← hs]
      rfl

section Forward
variable {s : State} (hb : s.build.wf = true) (hh : s.host = []) (hr : s.phase = .run)
include hb hh hr

theorem step_of_selected {s1 s2 : State} {i : Instr} (hi : decode s.build (selected s) ⟨0, 0#0⟩ = .ok i)
    (hload : fetchOperand i s = .ok s1) (hexec : exec i s1 = .next s2) : step s = .next (advance i s2) := by
  rw [step_of_block hb hh, blockStep_of_decode hr hi, runOp_of hload hexec]

theorem step_skip (hg : s.stage = .skip) : step s = .next (setStage .unit (setPos s.build.fmt.H s)) :=
  step_of_selected hb hh hr (i := .skip) (by rw [selected_skip hg]; rfl) rfl rfl

theorem step_unpack (hg : s.stage = .unit) (hu : unitRemains s = true) {bs : List Byte}
    (hbs : memReads s s.pos s.build.fmt.G = .ok bs) : step s = .next (unpacked bs s) := by
  obtain ⟨i, hi, hrow, hexec⟩ := exists_unpackRow s.build ⟨0, 0#0⟩
  have hload : fetchOperand i s = .ok (setU (joinBytes bs) s) := by
    rw [fetchOperand_unpackRow hrow, loadUnit, hbs]
  rw [← selected_unpackRow hg ((unitRemains_iff s).mp hu)] at hi
  rw [step_of_selected hb hh hr hi hload (hexec _ rfl), advance_unpackRow hrow]
  rfl

theorem step_drop (hg : s.stage = .unit) (hu : unitRemains s = false) : step s = .next (signalDone s) :=
  step_of_selected hb hh hr (i := .drop) (by rw [selected_drop hg (unitRemains_eq_false_iff.mp hu)]; rfl) rfl
    (execDrop_enabled hr hu)

variable {j : Nat} (hj : j < s.build.fmt.S)
include hj

theorem step_norm (hg : s.stage = .norm j) {r : Raw10} (hlane : s.raw[j]? = some r) :
    step s = .next (setStage (if j + 1 < s.build.fmt.S then .norm (j + 1) else .cvt 0) (setFx j (normFn r) s)) :=
  step_of_selected hb hh hr (i := .norm j) (by rw [selected_norm hg]; exact if_pos hj) rfl
    (show execNorm j s = _ by simp [execNorm, normOperand, readLane_ok.mpr hlane])

theorem step_cvt (hg : s.stage = .cvt j) {x : Fx10} (hlane : s.fx[j]? = some x) :
    step s = .next (setStage (if j + 1 < s.build.fmt.S then .cvt (j + 1) else .emit 0) (setF64 j (cvtFn x) s)) :=
  step_of_selected hb hh hr (i := .cvt j) (by rw [selected_cvt hg]; exact if_pos hj) rfl
    (show execCvt j s = _ by simp [execCvt, cvtOperand, readLane_ok.mpr hlane])

theorem step_emit (hg : s.stage = .emit j) {v : F64} (hlane : s.f64[j]? = some v) (hc : s.count < s.build.outCap) :
    step s = .next (advance (.emit j) (bumpCount (memWrite s.count v s))) :=
  step_of_selected hb hh hr (by rw [selected_emit hg]; exact if_pos hj) rfl (execEmit_of_lt hlane hc)

end Forward


/-! ### No stop in a transaction -/

theorem exists_getElem? {α : Type} {l : List α} {j : Nat} (h : j < l.length) : ∃ a, l[j]? = some a :=
  ⟨l[j], List.getElem?_eq_getElem h⟩

section Progress
variable {s : State}

/-- R111: word `j` of a complete unit `k` is one of the `count(L)` words. -/
theorem mul_add_lt_countOf {f : WireFormat} {l k j : Nat} (hk : k < unitsOf f l) (hj : j < f.S) :
    k * f.S + j < countOf f l := by
  calc k * f.S + j < (k + 1) * f.S := by rw [Nat.succ_mul]; omega
    _ ≤ unitsOf f l * f.S := Nat.mul_le_mul_right _ hk
    _ = countOf f l := Nat.mul_comm _ _

/-- R115: where a unit remains, its bytes are those of the buffer at `pos`. -/
theorem State.RunOk.memReads_unit (h : s.RunOk) (hu : unitRemains s = true) :
    memReads s s.pos s.build.fmt.G = .ok ((s.buf.drop s.pos).take s.build.fmt.G) := by
  have hend := (unitRemains_iff s).mp hu
  exact memReads_of_le h.input _ _ (by omega)

/-- R201: in `phase = RUN` every stage has its step: the lane registers exist, the unit's bytes are held, and `OUT` has
room. -/
theorem State.Inv.exists_step_run (hi : s.Inv) (hh : s.host = []) (hr : s.phase = .run) : ∃ t, step s = .next t := by
  have hrun := hi.running hr
  cases hg : s.stage with
  | skip => exact ⟨_, step_skip hi.built hh hr hg⟩
  | unit =>
    cases hu : unitRemains s with
    | true => exact ⟨_, step_unpack hi.built hh hr hg hu (hrun.memReads_unit hu)⟩
    | false => exact ⟨_, step_drop hi.built hh hr hg hu⟩
  | norm j =>
    obtain ⟨k, -, -, -, hj⟩ := (seqOk_norm hg).mp hrun.seq
    obtain ⟨r, hlane⟩ := exists_getElem? (hi.raws.symm ▸ hj)
    exact ⟨_, step_norm hi.built hh hr hj hg hlane⟩
  | cvt j =>
    obtain ⟨k, -, -, -, hj⟩ := (seqOk_cvt hg).mp hrun.seq
    obtain ⟨x, hlane⟩ := exists_getElem? (hi.fxs.symm ▸ hj)
    exact ⟨_, step_cvt hi.built hh hr hj hg hlane⟩
  | emit j =>
    obtain ⟨k, hk, -, hcount, hj⟩ := (seqOk_emit hg).mp hrun.seq
    obtain ⟨v, hlane⟩ := exists_getElem? (hi.f64s.symm ▸ hj)
    have hroom := (mul_add_lt_countOf hk hj).trans_le hrun.output
    exact ⟨_, step_emit hi.built hh hr hj hg hlane (hcount ▸ hroom)⟩

end Progress


/-! ### What decides the path (R119) -/

/-- The control part of the sequencer's step: a function that reads no data, and leaves all data as it is. -/
def nextControl (s : State) : State :=
  match s.stage with
  | .skip => setStage .unit (setPos s.build.fmt.H s)
  | .unit => if unitRemains s then setStage (.norm 0) s else signalDone s
  | .norm j => advance (.norm j) s
  | .cvt j => advance (.cvt j) s
  | .emit j => advance (.emit j) (bumpCount s)

/-- `nextControl` is the machine's: every step of the sequencer leads where it says. -/
theorem SeqStep.sameControl_nextControl {s t : State} (h : SeqStep s t) : t.SameControl (nextControl s) := by
  cases h with
  | skip hg | norm j r hg | cvt j x hg =>
    rw [nextControl, hg]
    constructor <;> rfl
  | unpack bs hg hu | drop hg hu =>
    simp only [nextControl, hg, hu]
    constructor <;> rfl
  | emit j v hg _ _ hj =>
    simp only [nextControl, hg, advance_emit_of_lt (bumpCount s) hj]
    constructor <;> rfl
  | emitLast j v hg _ _ hj =>
    simp only [nextControl, hg, advance_emit_last (bumpCount s) hj]
    constructor <;> rfl

section SameControl
variable {s t s' t' : State}

theorem State.SameControl.symm (h : s.SameControl t) : t.SameControl s :=
  ⟨h.build.symm, h.phase.symm, h.stage.symm, h.pos.symm, h.present.symm, h.len.symm, h.done.symm, h.err.symm,
    h.count.symm, h.host.symm⟩

theorem State.SameControl.trans {u : State} (h : s.SameControl t) (h' : t.SameControl u) : s.SameControl u :=
  ⟨h.build.trans h'.build, h.phase.trans h'.phase, h.stage.trans h'.stage, h.pos.trans h'.pos,
    h.present.trans h'.present, h.len.trans h'.len, h.done.trans h'.done, h.err.trans h'.err,
    h.count.trans h'.count, h.host.trans h'.host⟩

theorem State.SameControl.setStage (h : s.SameControl s') (g : Stage) :
    (setStage g s).SameControl (setStage g s') := { h with stage := rfl }

theorem State.SameControl.setPos (h : s.SameControl s') {p p' : Nat} (hp : p = p') :
    (setPos p s).SameControl (setPos p' s') := { h with pos := hp }

theorem State.SameControl.bumpCount (h : s.SameControl s') : (bumpCount s).SameControl (bumpCount s') :=
  { h with count := congrArg (· + 1) h.count }

theorem State.SameControl.signalDone (h : s.SameControl s') : (signalDone s).SameControl (signalDone s') :=
  { h with phase := rfl, done := rfl }

theorem State.SameControl.unitRemains (h : s.SameControl s') : unitRemains s = unitRemains s' := by
  rw [Machine.unitRemains, Machine.unitRemains, h.pos, h.build, h.len]

/-- R115: where the sequencer goes after an operation is decided by the build, the operation and `pos`. -/
theorem State.SameControl.advance (h : s.SameControl s') (i : Instr) : (advance i s).SameControl (advance i s') := by
  cases i with
  | decode | drop => exact h
  | skip | unpack | unpackD40 | unpackW32 => exact h.setStage _
  | norm j | cvt j =>
    simp only [Machine.advance, h.build]
    exact h.setStage _
  | emit j =>
    simp only [Machine.advance, h.build]
    split
    · exact h.setStage _
    · exact (h.setPos (by rw [h.pos])).setStage _

theorem State.SameControl.nextControl (h : s.SameControl s') : (nextControl s).SameControl (nextControl s') := by
  simp only [Machine.nextControl, ← h.stage, ← h.unitRemains]
  cases s.stage with
  | skip => exact (h.setPos (by rw [h.build])).setStage _
  | unit =>
    dsimp only
    split
    · exact h.setStage _
    · exact h.signalDone
  | norm j => exact h.advance _
  | cvt j => exact h.advance _
  | emit j => exact h.bumpCount.advance _

theorem SeqStep.sameControl (h : SeqStep s t) (h' : SeqStep s' t') (hc : s.SameControl s') : t.SameControl t' :=
  h.sameControl_nextControl.trans (hc.nextControl.trans h'.sameControl_nextControl.symm)

end SameControl

/-- Settles O53: outside `phase = RUN` both states wait; in it both take the sequencer's step, which leads to the same
`nextControl`. -/
theorem dataNeverSteers : Obligations.DataNeverSteers := by
  intro s s' hi hi' hc hh
  have hh' : s'.host = [] := hc.host ▸ hh
  by_cases hr : s.phase = .run
  · have hr' : s'.phase = .run := hc.phase ▸ hr
    obtain ⟨t, ht⟩ := hi.exists_step_run hh hr
    obtain ⟨t', ht'⟩ := hi'.exists_step_run hh' hr'
    have hseq := blockStep_run hr (step_of_block hi.built hh ▸ ht)
    have hseq' := blockStep_run hr' (step_of_block hi'.built hh' ▸ ht')
    exact ⟨t, t', ht, ht', hseq.sameControl hseq' hc⟩
  · have hr' : s'.phase ≠ .run := hc.phase ▸ hr
    exact ⟨s, s', step_waiting hi.built hh hr, step_waiting hi'.built hh' hr', hc⟩

end Sys2Proof.Machine
end

section
/-! The invariant of the Trace (`40_decode.md` R121): every step keeps `OUT[0..COUNT)` equal to the first `COUNT` words
of `decode(fmt, BUF)`, with the datapath registers holding the unit in progress. -/

namespace Sys2Proof.Machine

/-! ### The datapath at each stage -/

section DataOk
variable {s : State} {k : Nat}

theorem dataOk_unit (hg : s.stage = .unit) : s.dataOk k := by
  simp [State.dataOk, hg]

theorem dataOk_norm {j : Nat} (hg : s.stage = .norm j) :
    s.dataOk k ↔ s.u = unitAt s.build.fmt s.buf k ∧ s.raw = unpackUnit s.build.fmt s.u ∧
      s.fx.take j = (s.raw.map normFn).take j := by
  simp [State.dataOk, hg]

theorem dataOk_cvt {j : Nat} (hg : s.stage = .cvt j) :
    s.dataOk k ↔ s.u = unitAt s.build.fmt s.buf k ∧ s.raw = unpackUnit s.build.fmt s.u ∧
      s.fx = s.raw.map normFn ∧ s.f64.take j = (s.fx.map cvtFn).take j := by
  simp [State.dataOk, hg]

theorem dataOk_emit {j : Nat} (hg : s.stage = .emit j) :
    s.dataOk k ↔ s.u = unitAt s.build.fmt s.buf k ∧ s.raw = unpackUnit s.build.fmt s.u ∧
      s.fx = s.raw.map normFn ∧ s.f64 = s.fx.map cvtFn := by
  simp [State.dataOk, hg]

/-- R110: once all lanes are converted, the registers `F64` hold the words of the unit. -/
theorem f64_eq_unitWords {j : Nat} (hg : s.stage = .emit j) (h : s.dataOk k) :
    s.f64 = unitWords s.build.fmt s.buf k := by
  obtain ⟨hu, hraw, hfx, hf64⟩ := (dataOk_emit hg).mp h
  rw [hf64, hfx, hraw, hu, List.map_map]
  rfl

end DataOk

/-- One more lane of a register file written as `m` says. -/
theorem take_succ_set {α : Type} {l m : List α} {j : Nat} {a : α} (h : l.take j = m.take j) (hj : j < l.length)
    (hm : m[j]? = some a) : (l.set j a).take (j + 1) = m.take (j + 1) := by
  rw [List.take_add_one, List.take_add_one, List.take_set_of_le (Nat.le_refl j), h, hm,
    List.getElem?_set_self hj]

/-- The last lane of a register file written as `m` says. -/
theorem set_last_eq {α : Type} {l m : List α} {j : Nat} {a : α} (h : l.take j = m.take j) (hj : j + 1 = l.length)
    (hlen : l.length = m.length) (hm : m[j]? = some a) : l.set j a = m := by
  have htake := take_succ_set h (by omega) hm
  rwa [List.take_of_length_le (by rw [List.length_set]; omega), List.take_of_length_le (by omega)] at htake

/-- The unit that `COUNT` is in: `k` after `k` units and fewer than `S` words more. -/
theorem mul_add_div_of_lt {k c j : Nat} (h : j < c) : (k * c + j) / c = k := by
  rw [Nat.mul_comm, Nat.mul_add_div (by omega), Nat.div_eq_of_lt h, Nat.add_zero]


/-! ### The Trace grows by the next word of the result -/

section TraceGrows
variable {s : State}

theorem trace_emit (v : F64) : (bumpCount (memWrite s.count v s)).trace = s.trace ++ [some v] := by
  simp only [State.trace, bumpCount_count, memWrite_count, bumpCount_out, memWrite_out, List.range_succ,
    List.map_append, List.map_singleton, Memory.read_write_same]
  refine congrArg (· ++ [some v]) (List.map_congr_left fun k hk => Memory.read_write_other _ _ _ _ ?_)
  exact (List.mem_range.mp hk).ne

theorem take_succ_of_getElem? {α : Type} {l : List α} {n : Nat} {a : α} (h : l[n]? = some a) :
    l.take (n + 1) = l.take n ++ [a] := by
  rw [List.take_add_one, h]
  rfl

/-- R121: the word of `EMIT` is the next one of the result. -/
theorem State.TraceInv.decodeBuf_getElem?_count (ht : s.TraceInv) (hr : s.phase = .run) {j : Nat} {v : F64}
    (hg : s.stage = .emit j) (hv : s.f64[j]? = some v) : (decodeBuf s.build.fmt s.buf)[s.count]? = some v := by
  obtain ⟨k, hk, -, hcount, hj⟩ := (seqOk_emit hg).mp (ht.inv.running hr).seq
  have hdata := ht.data hr
  rw [hcount, mul_add_div_of_lt hj] at hdata
  rw [hcount, decodeBuf_getElem? ht.inv.built (by rwa [buf_length]) hj, ← f64_eq_unitWords hg hdata, hv]

/-- R121: after `EMIT` the Trace is one word more of the result. -/
theorem State.TraceInv.emitted_succ (ht : s.TraceInv) (hr : s.phase = .run) {j : Nat} {v : F64}
    (hg : s.stage = .emit j) (hv : s.f64[j]? = some v) :
    (bumpCount (memWrite s.count v s)).trace = ((decodeBuf s.build.fmt s.buf).take (s.count + 1)).map some := by
  rw [trace_emit, ht.emitted hr, take_succ_of_getElem? (ht.decodeBuf_getElem?_count hr hg hv), List.map_append,
    List.map_singleton]

end TraceGrows


/-! ### Every step of the sequencer keeps the Trace -/

section SequencerKeepsTrace
variable {s : State}

/-- Before `SKIP` nothing is emitted and no unit is in progress. -/
theorem State.Inv.traceInv_of_skip (hi : s.Inv) (hg : s.stage = .skip) : s.TraceInv where
  inv := hi
  emitted hr := by
    have hcount := (seqOk_skip hg).mp (hi.running hr).seq
    simp [State.trace, hcount]
  data _ := by simp [State.dataOk, hg]

/-- R115: the load puts unit `COUNT div S` of the buffer in `U`. -/
theorem State.TraceInv.of_unpack (ht : s.TraceInv) (hr : s.phase = .run) {bs : List Byte} (hg : s.stage = .unit)
    (hu : unitRemains s = true) (hbs : memReads s s.pos s.build.fmt.G = .ok bs) : (unpacked bs s).TraceInv :=
  { ht with
    inv := ht.inv.of_unpack hg hu hbs
    data := fun _ => by
      have hrun := ht.inv.running hr
      obtain ⟨k, -, hpos, hcount⟩ := (seqOk_unit hg).mp hrun.seq
      obtain ⟨-, -, hS, -⟩ := s.build.fmt.wf_facts ht.inv.built
      have hk : s.count / s.build.fmt.S = k := by rw [hcount]; exact mul_add_div_of_lt (j := 0) hS
      rw [hrun.memReads_unit hu] at hbs
      cases hbs
      refine (dataOk_norm rfl).mpr ⟨?_, rfl, rfl⟩
      show joinBytes _ = unitAt s.build.fmt s.buf (s.count / s.build.fmt.S)
      rw [hk, hpos, unitAt] }

/-- R160: `NORM` of a lane, whatever the other lanes of `FX` hold. -/
theorem State.TraceInv.of_norm (ht : s.TraceInv) (hr : s.phase = .run) {j : Nat} {r : Raw10} (hg : s.stage = .norm j)
    (hlane : s.raw[j]? = some r) :
    (setStage (if j + 1 < s.build.fmt.S then .norm (j + 1) else .cvt 0) (setFx j (normFn r) s)).TraceInv :=
  { ht with
    inv := ht.inv.of_norm (normFn r) hg
    data := fun _ => by
      obtain ⟨hu, hraw, hfx⟩ := (dataOk_norm hg).mp (ht.data hr)
      obtain ⟨k, -, -, -, hj⟩ := (seqOk_norm hg).mp (ht.inv.running hr).seq
      have hlen := ht.inv.fxs
      have hnorm : (s.raw.map normFn)[j]? = some (normFn r) := by rw [List.getElem?_map, hlane]; rfl
      split
      · exact (dataOk_norm rfl).mpr ⟨hu, hraw, take_succ_set hfx (by omega) hnorm⟩
      · refine (dataOk_cvt rfl).mpr ⟨hu, hraw, set_last_eq hfx (by omega) ?_ hnorm, rfl⟩
        rw [List.length_map, hlen]
        exact ht.inv.raws.symm }

/-- R175: `CVT` of a lane, whatever the other lanes of `F64` hold. -/
theorem State.TraceInv.of_cvt (ht : s.TraceInv) (hr : s.phase = .run) {j : Nat} {x : Fx10} (hg : s.stage = .cvt j)
    (hlane : s.fx[j]? = some x) :
    (setStage (if j + 1 < s.build.fmt.S then .cvt (j + 1) else .emit 0) (setF64 j (cvtFn x) s)).TraceInv :=
  { ht with
    inv := ht.inv.of_cvt (cvtFn x) hg
    data := fun _ => by
      obtain ⟨hu, hraw, hfx, hf64⟩ := (dataOk_cvt hg).mp (ht.data hr)
      obtain ⟨k, -, -, -, hj⟩ := (seqOk_cvt hg).mp (ht.inv.running hr).seq
      have hlen := ht.inv.f64s
      have hcvt : (s.fx.map cvtFn)[j]? = some (cvtFn x) := by rw [List.getElem?_map, hlane]; rfl
      split
      · exact (dataOk_cvt rfl).mpr ⟨hu, hraw, hfx, take_succ_set hf64 (by omega) hcvt⟩
      · refine (dataOk_emit rfl).mpr ⟨hu, hraw, hfx, set_last_eq hf64 (by omega) ?_ hcvt⟩
        rw [List.length_map, hlen]
        exact ht.inv.fxs.symm }

/-- R116: `EMIT` of a lane that is not the last stays in the same unit. -/
theorem State.TraceInv.of_emit (ht : s.TraceInv) (hr : s.phase = .run) {j : Nat} {v : F64} (hg : s.stage = .emit j)
    (hv : s.f64[j]? = some v) (hj : j + 1 < s.build.fmt.S) :
    (setStage (.emit (j + 1)) (bumpCount (memWrite s.count v s))).TraceInv where
  inv := ht.inv.of_emit hr v hg hj
  emitted _ := ht.emitted_succ hr hg hv
  data _ := by
    obtain ⟨k, -, -, hcount, hlt⟩ := (seqOk_emit hg).mp (ht.inv.running hr).seq
    have hsame : (s.count + 1) / s.build.fmt.S = s.count / s.build.fmt.S := by
      rw [hcount, mul_add_div_of_lt hlt, Nat.add_assoc, mul_add_div_of_lt hj]
    have hdata := (dataOk_emit hg).mp (ht.data hr)
    rw [← hsame] at hdata
    exact (dataOk_emit rfl).mpr hdata

theorem SeqStep.traceInv {t : State} (h : SeqStep s t) (ht : s.TraceInv) (hr : s.phase = .run) : t.TraceInv := by
  cases h with
  | skip hg => exact { ht with inv := ht.inv.of_skip hg, data := fun _ => dataOk_unit rfl }
  | unpack bs hg hu hbs => exact ht.of_unpack hr hg hu hbs
  | drop hg hu => exact (ht.inv.of_drop hr hg hu).traceInv_of_not_run (by simp)
  | norm j r hg hlane => exact ht.of_norm hr hg hlane
  | cvt j x hg hlane => exact ht.of_cvt hr hg hlane
  | emit j v hg hv _ hj => exact ht.of_emit hr hg hv hj
  | emitLast j v hg hv _ hj =>
    exact ⟨ht.inv.of_emitLast hr v hg hj, fun _ => ht.emitted_succ hr hg hv, fun _ => dataOk_unit rfl⟩

end SequencerKeepsTrace


/-! ### Every move of the host keeps the Trace -/

section HostKeepsTrace
variable {s : State}

theorem State.TraceInv.of_blockStep {t : State} (ht : s.TraceInv) (h : blockStep s = .next t) : t.TraceInv := by
  obtain ⟨-, rfl⟩ | ⟨hr, hstep⟩ := blockStep_stays_or_seqStep h
  · exact ht
  · exact hstep.traceInv ht hr

/-- R22: a byte of `IN` at `LEN` or above is no byte of the buffer. -/
theorem buf_write_of_le {i : Nat} (b : Byte) (h : s.len ≤ i) : (setIn (Memory.write s.inMem i b) s).buf = s.buf := by
  refine List.map_congr_left fun k hk => ?_
  have hk' : k < s.len := List.mem_range.mp hk
  rw [setIn_inMem, Memory.read_write_other _ _ _ _ (by omega)]

/-- R64: a write to `IN` that the host may make leaves the buffer of a running transaction. -/
theorem State.TraceInv.of_writeIn (ht : s.TraceInv) {i : Nat} (b : Byte) (hw : mayWriteIn s i = true)
    (hi : (setIn (Memory.write s.inMem i b) s).Inv) : (setIn (Memory.write s.inMem i b) s).TraceInv := by
  rcases (mayWriteIn_iff s i).mp hw with hr | hle
  · exact hi.traceInv_of_not_run hr
  · have hbuf := buf_write_of_le b hle
    refine ⟨hi, fun hr => ?_, fun hr => ?_⟩
    · rw [hbuf]
      exact ht.emitted hr
    · have hdata := ht.data hr
      simp only [State.dataOk, hbuf]
      exact hdata

theorem State.TraceInv.of_hostMove {t : State} {m : HostMove} (ht : s.TraceInv) (h : hostMove m s = .next t) :
    t.TraceInv := by
  have hi := ht.inv.of_hostMove h
  obtain ⟨-, hb⟩ | ⟨cmd, p, len, -, -, hd⟩ | ⟨-, rfl⟩ | ⟨bytes, -, hr, rfl⟩ | ⟨i, b, -, hw, rfl⟩ | ⟨-, -, rfl⟩ :=
    hostMove_next h
  · exact ht.of_blockStep hb
  · obtain ⟨-, ⟨-, rfl⟩ | ⟨-, -, -, rfl⟩⟩ := execDecode_next hd
    · exact hi.traceInv_of_not_run (by simp)
    · exact hi.traceInv_of_skip rfl
  · exact hi.traceInv_of_skip rfl
  · exact hi.traceInv_of_not_run hr
  · exact ht.of_writeIn b hw hi
  · exact ht

theorem State.TraceInv.of_setHost (ht : s.TraceInv) (rest : List HostMove) : (setHost rest s).TraceInv :=
  { ht with inv := ht.inv.of_setHost rest }

theorem State.TraceInv.of_step {t : State} (ht : s.TraceInv) (h : step s = .next t) : t.TraceInv := by
  obtain ⟨-, ⟨-, hb⟩ | ⟨m, rest, -, hm⟩⟩ := step_next h
  · exact ht.of_blockStep hb
  · exact (ht.of_setHost rest).of_hostMove hm

end HostKeepsTrace

/-- Settles O47: a step is the block's own or a move of the host, and each keeps the Trace. -/
theorem stepKeepsTrace : Obligations.StepKeepsTrace :=
  fun _ _ ht h => ht.of_step h

end Sys2Proof.Machine
end

section
/-! A unit step (`40_decode.md` R115, R118): its `1 + 3*S` operations, taken one by one, are `UNITSTEP`. -/

namespace Sys2Proof.Machine

/-! ### Runs of known states -/

theorem runs_one {s t : State} (h : step s = .next t) : runs 1 s = .next t := runs_step h

/-- A run through a known sequence of states. -/
theorem runs_of_steps {x : Nat → State} {n : Nat} (h : ∀ j, j < n → step (x j) = .next (x (j + 1))) :
    runs n (x 0) = .next (x n) := by
  induction n with
  | zero => rfl
  | succ n ih => rw [runs_add (ih fun j hj => h j (by omega)), runs_one (h n (by omega))]


/-! ### Lane registers written one by one, words stored one by one -/

/-- The first `j` registers of a file hold the new values, the others the old ones. -/
def lanesWritten {α : Type} (new old : List α) (j : Nat) : List α := new.take j ++ old.drop j

section LanesWritten
variable {α : Type} {new old : List α}

theorem lanesWritten_all (hlen : old.length = new.length) : lanesWritten new old new.length = new := by
  rw [lanesWritten, List.take_length, ← hlen, List.drop_length, List.append_nil]

theorem lanesWritten_set (hlen : old.length = new.length) {j : Nat} {a : α} (ha : new[j]? = some a) :
    (lanesWritten new old j).set j a = lanesWritten new old (j + 1) := by
  obtain ⟨hj, rfl⟩ := List.getElem?_eq_some_iff.mp ha
  have htake : (new.take j).length = j := by rw [List.length_take]; omega
  rw [lanesWritten, lanesWritten, List.set_append_right _ _ htake.le, htake, Nat.sub_self,
    List.drop_eq_getElem_cons (by omega), List.set_cons_zero, List.take_succ_eq_append_getElem hj,
    List.append_assoc, List.singleton_append]

end LanesWritten

/-- The memory after words stored at `k, k+1, ...` (R58). -/
def Memory.writes (k : Nat) : List F64 → Memory 64 → Memory 64
  | [], m => m
  | v :: vs, m => Memory.writes (k + 1) vs (Memory.write m k v)

theorem memWrites_eq (k : Nat) (vs : List F64) (s : State) :
    memWrites k vs s = { s with out := Memory.writes k vs s.out } := by
  induction vs generalizing k s with
  | nil => rfl
  | cons v vs ih => exact ih (k + 1) (memWrite k v s)

theorem Memory.writes_concat (k : Nat) (vs : List F64) (v : F64) (m : Memory 64) :
    Memory.writes k (vs ++ [v]) m = Memory.write (Memory.writes k vs m) (k + vs.length) v := by
  induction vs generalizing k m with
  | nil => rfl
  | cons w vs ih =>
    rw [List.cons_append, Memory.writes, ih, Memory.writes, List.length_cons, Nat.add_assoc, Nat.add_comm 1]

/-- R59: words stored from `k` on leave the words past them. -/
theorem Memory.read_writes_of_le {k : Nat} {vs : List F64} (m : Memory 64) {i : Nat} (h : k + vs.length ≤ i) :
    Memory.read (Memory.writes k vs m) i = Memory.read m i := by
  induction vs generalizing k m with
  | nil => rfl
  | cons v vs ih =>
    rw [List.length_cons] at h
    rw [Memory.writes, ih _ (by omega), Memory.read_write_other _ _ _ _ (by omega)]


/-! ### The three loops over the lanes (R115) -/

/-- After `NORM` of the first `j` lanes. -/
def normedTo (s : State) (j : Nat) : State :=
  { s with
    fx := lanesWritten (s.raw.map normFn) s.fx j
    stage := if j < s.build.fmt.S then .norm j else .cvt 0 }

/-- After `CVT` of the first `j` lanes. -/
def convertedTo (s : State) (j : Nat) : State :=
  { s with
    f64 := lanesWritten (s.fx.map cvtFn) s.f64 j
    stage := if j < s.build.fmt.S then .cvt j else .emit 0 }

/-- After `EMIT` of the first `j` lanes. -/
def emittedTo (s : State) (j : Nat) : State :=
  { s with
    out := Memory.writes s.count (s.f64.take j) s.out
    count := s.count + j
    pos := if j < s.build.fmt.S then s.pos else s.pos + s.build.fmt.G
    stage := if j < s.build.fmt.S then .emit j else .unit }

section Loops
variable {s : State} (hb : s.build.wf = true) (hh : s.host = []) (hr : s.phase = .run)

theorem normedTo_zero (hg : s.stage = .norm 0) (hS : 0 < s.build.fmt.S) : normedTo s 0 = s := by
  rw [normedTo, if_pos hS, ← hg]
  rfl

theorem convertedTo_zero (hg : s.stage = .cvt 0) (hS : 0 < s.build.fmt.S) : convertedTo s 0 = s := by
  rw [convertedTo, if_pos hS, ← hg]
  rfl

theorem emittedTo_zero (hg : s.stage = .emit 0) (hS : 0 < s.build.fmt.S) : emittedTo s 0 = s := by
  rw [emittedTo, if_pos hS, if_pos hS, ← hg]
  rfl

include hb hh hr

theorem step_normedTo (hraw : s.raw.length = s.build.fmt.S) (hfx : s.fx.length = s.build.fmt.S) {j : Nat}
    (hj : j < s.build.fmt.S) : step (normedTo s j) = .next (normedTo s (j + 1)) := by
  obtain ⟨r, hlane⟩ := exists_getElem? (hraw.symm ▸ hj)
  have hnorm : (s.raw.map normFn)[j]? = some (normFn r) := by rw [List.getElem?_map, hlane]; rfl
  rw [step_norm (s := normedTo s j) hb hh hr hj (if_pos hj) hlane]
  simp only [setStage, setFx, normedTo, lanesWritten_set (hfx.trans (by rw [List.length_map, hraw])) hnorm]
  rfl

theorem step_convertedTo (hfx : s.fx.length = s.build.fmt.S) (hf64 : s.f64.length = s.build.fmt.S) {j : Nat}
    (hj : j < s.build.fmt.S) : step (convertedTo s j) = .next (convertedTo s (j + 1)) := by
  obtain ⟨x, hlane⟩ := exists_getElem? (hfx.symm ▸ hj)
  have hcvt : (s.fx.map cvtFn)[j]? = some (cvtFn x) := by rw [List.getElem?_map, hlane]; rfl
  rw [step_cvt (s := convertedTo s j) hb hh hr hj (if_pos hj) hlane]
  simp only [setStage, setF64, convertedTo, lanesWritten_set (hf64.trans (by rw [List.length_map, hfx])) hcvt]
  rfl

theorem step_emittedTo (hf64 : s.f64.length = s.build.fmt.S) (hroom : s.count + s.build.fmt.S ≤ s.build.outCap)
    {j : Nat} (hj : j < s.build.fmt.S) : step (emittedTo s j) = .next (emittedTo s (j + 1)) := by
  obtain ⟨v, hlane⟩ := exists_getElem? (hf64.symm ▸ hj)
  have hlen : (s.f64.take j).length = j := by rw [List.length_take]; omega
  have hout : Memory.writes s.count (s.f64.take (j + 1)) s.out =
      Memory.write (Memory.writes s.count (s.f64.take j) s.out) (s.count + j) v := by
    rw [take_succ_of_getElem? hlane, Memory.writes_concat, hlen]
  have hcount : s.count + j < s.build.outCap := by omega
  rw [step_emit (s := emittedTo s j) hb hh hr hj (if_pos hj) hlane hcount]
  by_cases hlast : j + 1 < s.build.fmt.S
  · rw [advance_emit_of_lt (bumpCount (memWrite (emittedTo s j).count v (emittedTo s j))) hlast]
    simp only [setStage, bumpCount, memWrite, emittedTo, hout, if_pos hj, if_pos hlast, Nat.add_assoc]
  · rw [advance_emit_last (bumpCount (memWrite (emittedTo s j).count v (emittedTo s j))) hlast]
    simp only [setStage, setPos, bumpCount, memWrite, emittedTo, hout, if_pos hj, if_neg hlast, Nat.add_assoc]

end Loops

theorem State.Inv.of_runs {s t : State} {n : Nat} (hi : s.Inv) (h : runs n s = .next t) : t.Inv :=
  runs_induction (fun _ _ hi h => hi.of_step h) hi h

section RunLoops
variable {s : State} (hi : s.Inv) (hh : s.host = []) (hr : s.phase = .run)
include hi hh hr

theorem runs_normedTo (hg : s.stage = .norm 0) : runs s.build.fmt.S s = .next (normedTo s s.build.fmt.S) := by
  obtain ⟨-, -, hS, -⟩ := s.build.fmt.wf_facts hi.built
  have hrun := runs_of_steps (x := normedTo s) fun j hj => step_normedTo hi.built hh hr hi.raws hi.fxs hj
  rwa [normedTo_zero hg hS] at hrun

theorem runs_convertedTo (hg : s.stage = .cvt 0) : runs s.build.fmt.S s = .next (convertedTo s s.build.fmt.S) := by
  obtain ⟨-, -, hS, -⟩ := s.build.fmt.wf_facts hi.built
  have hrun := runs_of_steps (x := convertedTo s) fun j hj => step_convertedTo hi.built hh hr hi.fxs hi.f64s hj
  rwa [convertedTo_zero hg hS] at hrun

theorem runs_emittedTo (hg : s.stage = .emit 0) (hroom : s.count + s.build.fmt.S ≤ s.build.outCap) :
    runs s.build.fmt.S s = .next (emittedTo s s.build.fmt.S) := by
  obtain ⟨-, -, hS, -⟩ := s.build.fmt.wf_facts hi.built
  have hrun := runs_of_steps (x := emittedTo s) fun j hj => step_emittedTo hi.built hh hr hi.f64s hroom hj
  rwa [emittedTo_zero hg hS] at hrun

end RunLoops


/-! ### `UNITSTEP` (R115) -/

/-- The state of `UNITSTEP` after the unit's bytes. -/
def unitDone (bs : List Byte) (s : State) : State :=
  let raws := unpackUnit s.build.fmt (joinBytes bs)
  let words := (raws.map normFn).map cvtFn
  { s with
    out := Memory.writes s.count words s.out
    u := joinBytes bs, raw := raws, fx := raws.map normFn, f64 := words
    count := s.count + s.build.fmt.S, pos := s.pos + s.build.fmt.G, stage := .unit }

theorem unitDone_pos (bs : List Byte) (s : State) : (unitDone bs s).pos = s.pos + s.build.fmt.G := rfl

/-- R59: `UNITSTEP` writes no word past its `S` words. -/
theorem read_unitDone_of_le {s : State} (hb : s.build.wf = true) (bs : List Byte) {i : Nat}
    (h : s.count + s.build.fmt.S ≤ i) : Memory.read (unitDone bs s).out i = Memory.read s.out i :=
  Memory.read_writes_of_le _ (by rwa [List.length_map, List.length_map, unpackUnit_length_of_wf hb])

theorem unitStep_of_room {s : State} {bs : List Byte} (hbs : memReads s s.pos s.build.fmt.G = .ok bs)
    (hroom : s.count + s.build.fmt.S ≤ s.build.outCap) : unitStep s = .next (unitDone bs s) := by
  simp only [unitStep, hbs, if_neg (Nat.not_lt.mpr hroom), memWrites_eq, unitDone]

/-- R115: the three loops after the load and `UNPACK` end in the state of `UNITSTEP`. -/
theorem loops_eq_unitDone {s : State} (hi : s.Inv) (bs : List Byte) :
    emittedTo (convertedTo (normedTo (unpacked bs s) s.build.fmt.S) s.build.fmt.S) s.build.fmt.S = unitDone bs s := by
  have hraw := unpackUnit_length_of_wf hi.built (joinBytes bs)
  have hfx := lanesWritten_all (new := (unpackUnit s.build.fmt (joinBytes bs)).map normFn) (old := s.fx)
    (by rw [List.length_map, hraw, hi.fxs])
  have hf64 := lanesWritten_all (new := ((unpackUnit s.build.fmt (joinBytes bs)).map normFn).map cvtFn) (old := s.f64)
    (by rw [List.length_map, List.length_map, hraw, hi.f64s])
  rw [List.length_map, hraw] at hfx
  rw [List.length_map, List.length_map, hraw] at hf64
  have htake : (((unpackUnit s.build.fmt (joinBytes bs)).map normFn).map cvtFn).take s.build.fmt.S =
      ((unpackUnit s.build.fmt (joinBytes bs)).map normFn).map cvtFn :=
    List.take_of_length_le (by rw [List.length_map, List.length_map, hraw])
  simp only [emittedTo, convertedTo, normedTo, unpacked, setStage, setRaws, setU, unitDone, hfx, hf64, htake,
    Nat.lt_irrefl, if_false]

/-- At a unit boundary with a unit left there is room in `OUT` for its words (R111, R202). -/
theorem State.Inv.unit_room {s : State} (hi : s.Inv) (hr : s.phase = .run) (hg : s.stage = .unit)
    (hu : unitRemains s = true) : s.count + s.build.fmt.S ≤ s.build.outCap := by
  have hrun := hi.running hr
  obtain ⟨k, -, hpos, hcount⟩ := (seqOk_unit hg).mp hrun.seq
  obtain ⟨-, -, hS, -⟩ := s.build.fmt.wf_facts hi.built
  have hk := (unitRemains_iff_lt_unitsOf hi.built hpos).mp hu
  have hlast := mul_add_lt_countOf (j := s.build.fmt.S - 1) hk (by omega)
  have hout := hrun.output
  omega

/-- R115, R118: the operations of a unit step, one by one: `UNPACK`, then the three loops. -/
theorem State.Inv.runs_unitOps {s : State} (hi : s.Inv) (hr : s.phase = .run) (hg : s.stage = .unit)
    (hu : unitRemains s = true) (hh : s.host = []) {bs : List Byte} (hbs : memReads s s.pos s.build.fmt.G = .ok bs) :
    runs (unitOps s.build.fmt) s = .next (unitDone bs s) := by
  have hstep := runs_one (step_unpack hi.built hh hr hg hu hbs)
  have hi1 := hi.of_runs hstep
  have hnorm := runs_normedTo hi1 hh hr rfl
  have hi2 := hi1.of_runs hnorm
  have hcvt := runs_convertedTo hi2 hh hr (if_neg (Nat.lt_irrefl _))
  have hi3 := hi2.of_runs hcvt
  have hemit := runs_emittedTo hi3 hh hr (if_neg (Nat.lt_irrefl _)) (hi.unit_room hr hg hu)
  have hops : unitOps s.build.fmt = 1 + (s.build.fmt.S + (s.build.fmt.S + s.build.fmt.S)) := by
    rw [unitOps]
    omega
  rw [hops, runs_add hstep, ← loops_eq_unitDone hi bs]
  exact (runs_add hnorm).trans ((runs_add hcvt).trans hemit)

/-- Settles O54: both sides end in `unitDone` of the unit's bytes. -/
theorem unitStepRefined : Obligations.UnitStepRefined := by
  intro s hi hr hg hu hh
  have hbs := (hi.running hr).memReads_unit hu
  exact ⟨_, unitStep_of_room hbs (hi.unit_room hr hg hu), hi.runs_unitOps hr hg hu hh hbs⟩

end Sys2Proof.Machine
end

section
/-! Whole transactions (`40_decode.md` R113, R118, R120 to R122): the states at the unit boundaries after a `START`, the
end, the result, and the number of steps. -/

namespace Sys2Proof.Machine

/-! ### The first step (R118 `start-ok`, `start-bad`) -/

/-- A state outside `phase = RUN` whose host makes one move, a `START` with `PRESENT = 1` and its promises kept (R112,
R202). -/
structure State.Starts (s : State) (len : Nat) : Prop where
  inv : s.Inv
  notRun : s.phase ≠ .run
  host : s.host = [.start (encodeCmd s.build.lenW true len)]
  fits : len < 2 ^ s.build.lenW
  input : inHolds s.inMem len = true
  output : countOf s.build.fmt len ≤ s.build.outCap

/-- A `START` runs the `DECODE` that its command word stands for. -/
theorem step_start {s t : State} {cmd : Bits} {rest : List HostMove} {p : Bool} {len : Nat} (hb : s.build.wf = true)
    (hh : s.host = .start cmd :: rest) (hi : decode s.build .start cmd = .ok (.decode p len))
    (hexec : execDecode p len (setHost rest s) = .next t) : step s = .next t := by
  rw [step_of_host hb hh, hostMove, setHost_build, hi]
  exact (runOp_decode p len (setHost rest s)).trans hexec

theorem State.Starts.step {s : State} {len : Nat} (h : s.Starts len) :
    step s = .next (enterRun len (clearResults (setHost [] s))) :=
  step_start h.inv.built h.host (decode_encodeCmd s.build true h.fits)
    (execDecode_accepted (s := setHost [] s) h.notRun h.input h.output)

/-- R118 `start-ok`: `DECODE`, then `SKIP`. -/
theorem State.Starts.runs_startOk {s : State} {len : Nat} (h : s.Starts len) :
    runs 2 s = .next (startOk len (setHost [] s)) :=
  (runs_step h.step).trans (runs_one (step_skip h.inv.built rfl rfl rfl))

/-- R94: `PRESENT` reads back from the command word, whatever `LEN` was written. -/
theorem decode_encodeCmd_present (b : Build) (present : Bool) (len : Nat) :
    ∃ l, decode b .start (encodeCmd b.lenW present len) = .ok (.decode present l) := by
  have hwidth : (encodeCmd b.lenW present len).width = 1 + b.lenW := rfl
  exact ⟨_, by rw [decode, if_pos hwidth, cmdPresent_encodeCmd]⟩

/-- R118 `start-bad`: a `START` with `PRESENT = 0` is over after its first step. -/
theorem step_startBad {s : State} {len : Nat} (hb : s.build.wf = true) (hr : s.phase ≠ .run)
    (hh : s.host = [.start (encodeCmd s.build.lenW false len)]) : step s = .next (startBad (setHost [] s)) := by
  obtain ⟨l, hl⟩ := decode_encodeCmd_present s.build false len
  exact step_start hb hh hl (execDecode_absent (s := setHost [] s) l hr)

/-- Settles O55: each row is one or two steps of the machine. -/
theorem startAndDropRefined : Obligations.StartAndDropRefined := fun _ hi =>
  ⟨fun _ hr hh hfits hin hout => State.Starts.runs_startOk ⟨hi, hr, hh, hfits, hin, hout⟩,
    fun _ hr hh => runs_one (step_startBad hi.built hr hh),
    fun hr hg hu hh => runs_one (step_drop hi.built hh hr hg hu)⟩


/-! ### The unit boundaries of a transaction -/

theorem State.TraceInv.of_runs {s t : State} {n : Nat} (ht : s.TraceInv) (h : runs n s = .next t) : t.TraceInv :=
  runs_induction (fun _ _ ht h => ht.of_step h) ht h

/-- `t` is at the boundary after `k` unit steps of the transaction of `LEN = len` that started in `s` (R115, R121). -/
structure AtBoundary (s : State) (len k : Nat) (t : State) : Prop where
  traceInv : t.TraceInv
  phase : t.phase = .run
  stage : t.stage = .unit
  host : t.host = []
  build : t.build = s.build
  operand : t.len = len
  inMem : t.inMem = s.inMem
  pos : t.pos = s.build.fmt.H + k * s.build.fmt.G
  /-- R59: no word past the result is written. -/
  kept : ∀ i, countOf s.build.fmt len ≤ i → Memory.read t.out i = Memory.read s.out i

section Boundary
variable {s t : State} {len k : Nat}

theorem State.Starts.atBoundary_zero (h : s.Starts len) : AtBoundary s len 0 (startOk len (setHost [] s)) where
  traceInv := (h.inv.traceInv_of_not_run h.notRun).of_runs h.runs_startOk
  phase := rfl
  stage := rfl
  host := rfl
  build := rfl
  operand := rfl
  inMem := rfl
  pos := by simp [startOk]
  kept _ _ := rfl

theorem AtBoundary.unitRemains_iff (h : AtBoundary s len k t) : unitRemains t = true ↔ k < unitsOf s.build.fmt len := by
  have hpos : t.pos = t.build.fmt.H + k * t.build.fmt.G := by rw [h.pos, h.build]
  rw [unitRemains_iff_lt_unitsOf h.traceInv.inv.built hpos, h.build, h.operand]

/-- R121: `COUNT = k*S`. -/
theorem AtBoundary.count (h : AtBoundary s len k t) : t.count = k * s.build.fmt.S := by
  have hi := h.traceInv.inv
  obtain ⟨k', -, hpos, hcount⟩ := (seqOk_unit h.stage).mp (hi.running h.phase).seq
  obtain ⟨-, hG, -⟩ := t.build.fmt.wf_facts hi.built
  have hmul : k' * t.build.fmt.G = k * t.build.fmt.G := by
    have hpos' := h.pos
    rw [← h.build] at hpos'
    omega
  rw [hcount, Nat.eq_of_mul_eq_mul_right hG hmul, h.build]

/-- R111: the words of unit `k` lie below `count(LEN)`. -/
theorem AtBoundary.words_le (h : AtBoundary s len k t) (hk : k < unitsOf s.build.fmt len) :
    t.count + t.build.fmt.S ≤ countOf s.build.fmt len := by
  rw [h.count, h.build, countOf, ← Nat.succ_mul, Nat.mul_comm]
  exact Nat.mul_le_mul_left _ hk

/-- One more unit step leads to the next boundary. -/
theorem AtBoundary.runs_unitOps (h : AtBoundary s len k t) (hk : k < unitsOf s.build.fmt len) :
    ∃ t', runs (unitOps s.build.fmt) t = .next t' ∧ AtBoundary s len (k + 1) t' := by
  have hi := h.traceInv.inv
  have hu := h.unitRemains_iff.mpr hk
  have hbs := (hi.running h.phase).memReads_unit hu
  have hrun := hi.runs_unitOps h.phase h.stage hu h.host hbs
  refine ⟨unitDone ((t.buf.drop t.pos).take t.build.fmt.G) t, by rwa [← h.build], ?_⟩
  exact
    { traceInv := h.traceInv.of_runs hrun
      phase := h.phase
      stage := rfl
      host := h.host
      build := h.build
      operand := h.operand
      inMem := h.inMem
      pos := by rw [unitDone_pos, h.pos, h.build, Nat.succ_mul, Nat.add_assoc]
      kept := fun i hi => by rw [read_unitDone_of_le h.traceInv.inv.built _ (h.words_le hk |>.trans hi), h.kept i hi] }

theorem State.Starts.runs_boundary (h : s.Starts len) (hk : k ≤ unitsOf s.build.fmt len) :
    ∃ t, runs (2 + k * unitOps s.build.fmt) s = .next t ∧ AtBoundary s len k t := by
  induction k with
  | zero => exact ⟨_, by rw [Nat.zero_mul]; exact h.runs_startOk, h.atBoundary_zero⟩
  | succ k ih =>
    obtain ⟨t, hrun, ht⟩ := ih (by omega)
    obtain ⟨t', hunit, ht'⟩ := ht.runs_unitOps hk
    exact ⟨t', by rw [Nat.succ_mul, ← Nat.add_assoc, runs_add hrun, hunit], ht'⟩

/-- R117: after the last unit `DROP` ends the transaction. -/
theorem State.Starts.runs_end (h : s.Starts len) : ∃ t, AtBoundary s len (unitsOf s.build.fmt len) t ∧
    runs (2 + unitsOf s.build.fmt len * unitOps s.build.fmt) s = .next t ∧
    runs (transactionOps s.build.fmt len) s = .next (signalDone t) := by
  obtain ⟨t, hrun, ht⟩ := h.runs_boundary (Nat.le_refl _)
  have hu : unitRemains t = false := by
    rw [← Bool.not_eq_true, ht.unitRemains_iff]
    exact Nat.lt_irrefl _
  refine ⟨t, ht, hrun, (runs_add hrun).trans (runs_one ?_)⟩
  exact step_drop ht.traceInv.inv.built ht.host ht.phase ht.stage hu

end Boundary


/-! ### The result (R113, R121, R122) -/

/-- What a finished transaction of the build and buffer of `s` leaves (R113, R59). -/
structure Finished (s : State) (len : Nat) (t : State) : Prop where
  phase : t.phase = .done
  done : t.done = true
  err : t.err = false
  count : t.count = countOf s.build.fmt len
  trace : t.trace = (decodeBuf s.build.fmt (bufOf s.inMem len)).map some
  inMem : t.inMem = s.inMem
  kept : ∀ i, t.count ≤ i → Memory.read t.out i = Memory.read s.out i

theorem AtBoundary.finished {s t : State} {len : Nat} (h : AtBoundary s len (unitsOf s.build.fmt len) t) :
    Finished s len (signalDone t) := by
  have hcount : t.count = countOf s.build.fmt len := by rw [h.count, countOf, Nat.mul_comm]
  have hbuf : t.buf = bufOf s.inMem len := by rw [State.buf, h.inMem, h.operand]
  have hall : (decodeBuf s.build.fmt (bufOf s.inMem len)).length ≤ countOf s.build.fmt len := by
    rw [← hbuf, ← h.build, decodeBuf_length h.traceInv.inv.built, buf_length, h.operand]
  have htrace := h.traceInv.emitted h.phase
  rw [hbuf, h.build, hcount, List.take_of_length_le hall] at htrace
  exact
    { phase := rfl
      done := rfl
      err := (h.traceInv.inv.running h.phase).noError
      count := hcount
      trace := htrace
      inMem := h.inMem
      kept := fun i hi => h.kept i (hcount ▸ hi) }

theorem State.Starts.runs_finished {s : State} {len : Nat} (h : s.Starts len) :
    ∃ t, runs (transactionOps s.build.fmt len) s = .next t ∧ Finished s len t := by
  obtain ⟨t, ht, -, hrun⟩ := h.runs_end
  exact ⟨_, hrun, ht.finished⟩

/-- Settles O56: the invariant of the Trace at the last unit boundary, where `COUNT = count(LEN)`, gives the whole
result. -/
theorem transactionComputesDecode : Obligations.TransactionComputesDecode := by
  intro s len hi hr hh hfits hin hout
  obtain ⟨t, hrun, ht⟩ := State.Starts.runs_finished ⟨hi, hr, hh, hfits, hin, hout⟩
  exact ⟨t, hrun, ht.phase, ht.done, ht.err, ht.count, ht.trace, ht.inMem, ht.kept⟩

theorem bufOf_congr {m m' : Memory 8} {n : Nat} (h : ∀ i, i < n → Memory.read m' i = Memory.read m i) :
    bufOf m' n = bufOf m n :=
  List.map_congr_left fun i hi => by rw [h i (List.mem_range.mp hi)]

theorem inHolds_congr {m m' : Memory 8} {n : Nat} (h : ∀ i, i < n → Memory.read m' i = Memory.read m i)
    (hin : inHolds m n = true) : inHolds m' n = true := by
  rw [inHolds_iff] at hin ⊢
  intro i hi
  rw [h i hi]
  exact hin i hi

/-- Settles O59: what `Finished` says of `COUNT`, `ERR` and the Trace names only the build and the bytes below `LEN`. -/
theorem historyIndependence : Obligations.HistoryIndependence := by
  intro s s' len hi hi' hr hr' hbuild
  refine ⟨fun hh hsame hfits hin hread hout => ?_, fun hh hsame => ?_⟩
  · have hs : s.Starts len := ⟨hi, hr, hh, hfits, hin, hout⟩
    have hs' : s'.Starts len :=
      ⟨hi', hr', by rw [hsame, hh, hbuild], hbuild ▸ hfits, inHolds_congr hread hin, by rwa [← hbuild]⟩
    obtain ⟨t, hrun, ht⟩ := hs.runs_finished
    obtain ⟨t', hrun', ht'⟩ := hs'.runs_finished
    rw [← hbuild] at hrun'
    refine ⟨t, t', hrun, hrun', ht.phase, ht'.phase, ?_, ht.err.trans ht'.err.symm, ?_⟩
    · rw [ht.count, ht'.count, hbuild]
    · rw [ht.trace, ht'.trace, hbuild, bufOf_congr hread]
  · have hh' : s'.host = [.start (encodeCmd s'.build.lenW false len)] := by rw [hsame, hh, hbuild]
    exact ⟨_, _, runs_one (step_startBad hi.built hr hh), runs_one (step_startBad hi'.built hr' hh'), rfl, rfl, rfl,
      rfl, rfl⟩


/-! ### The number of steps (R120) -/

theorem runs_waiting {s : State} (hb : s.build.wf = true) (hh : s.host = []) (hr : s.phase ≠ .run) (n : Nat) :
    runs n s = .next s := by
  induction n with
  | zero => rfl
  | succ n ih => rw [runs_step (step_waiting hb hh hr), ih]

/-- A run that ends in a next state passes through a next state after each number of its steps. -/
theorem runs_split {m n : Nat} {s t : State} (h : runs (m + n) s = .next t) :
    ∃ u, runs m s = .next u ∧ runs n u = .next t := by
  induction m generalizing s with
  | zero => exact ⟨s, rfl, by rwa [Nat.zero_add] at h⟩
  | succ m ih =>
    rw [Nat.succ_add, runs_succ] at h
    split at h
    · rename_i u hu
      rw [runs_step hu]
      exact ih h
    · cases h
    · cases h

/-- The block's own steps leave the host's moves (R118). -/
theorem SeqStep.host {s t : State} (h : SeqStep s t) : t.host = s.host := by
  cases h with
  | skip | unpack | drop | norm | cvt | emit | emitLast => rfl

theorem step_host_nil {s t : State} (hh : s.host = []) (h : step s = .next t) : t.host = [] := by
  obtain ⟨-, ⟨-, hb⟩ | ⟨m, rest, hm, -⟩⟩ := step_next h
  · obtain ⟨-, rfl⟩ | ⟨-, hstep⟩ := blockStep_stays_or_seqStep hb
    · exact hh
    · rw [hstep.host, hh]
  · simp [hh] at hm

/-- On a run without moves of the host, `phase = RUN` at its end says that it was `RUN` all along. -/
theorem phase_run_of_runs {s t : State} {n : Nat} (hb : s.build.wf = true) (hh : s.host = []) (h : runs n s = .next t)
    (hr : t.phase = .run) : s.phase = .run := by
  by_contra hnot
  rw [runs_waiting hb hh hnot] at h
  cases h
  exact hnot hr

section Steps
variable {s : State} {len : Nat}

/-- After its first step the transaction runs without moves of the host. -/
theorem State.Starts.of_runs (h : s.Starts len) {n : Nat} {t : State} (hn : 1 ≤ n) (hrun : runs n s = .next t) :
    t.Inv ∧ t.host = [] := by
  obtain ⟨m, rfl⟩ := Nat.exists_eq_add_of_le hn
  refine ⟨h.inv.of_runs hrun, ?_⟩
  rw [runs_add (runs_one h.step)] at hrun
  exact runs_induction (P := fun u => u.host = []) (fun _ _ => step_host_nil) rfl hrun

/-- R120: before the last step `phase = RUN`, since it still is at the last unit boundary. -/
theorem State.Starts.running (h : s.Starts len) {n : Nat} (hn : 1 ≤ n) (hlt : n < transactionOps s.build.fmt len) :
    ∃ t, runs n s = .next t ∧ t.phase = .run := by
  obtain ⟨e, he, hrun, -⟩ := h.runs_end
  obtain ⟨d, hd⟩ := Nat.exists_eq_add_of_le (Nat.le_of_lt_succ hlt)
  rw [hd] at hrun
  obtain ⟨t, ht, hrest⟩ := runs_split hrun
  obtain ⟨hinv, hhost⟩ := h.of_runs hn ht
  exact ⟨t, ht, phase_run_of_runs hinv.built hhost hrest he.phase⟩

/-- R120: from the last step on the block waits in `phase = DONE`. -/
theorem State.Starts.ended (h : s.Starts len) {n : Nat} (hle : transactionOps s.build.fmt len ≤ n) :
    ∃ t, runs n s = .next t ∧ t.final := by
  obtain ⟨e, he, -, hrun⟩ := h.runs_end
  obtain ⟨d, rfl⟩ := Nat.exists_eq_add_of_le hle
  refine ⟨signalDone e, ?_, rfl⟩
  rw [runs_add hrun]
  exact runs_waiting (s := signalDone e) he.traceInv.inv.built he.host (by simp) d

end Steps

/-- Settles O58: with `PRESENT = 1` by the unit boundaries, the last step and the waiting after it; with
`PRESENT = 0` the block waits from its first step on. -/
theorem terminationExact : Obligations.TerminationExact := by
  intro s len hi hr
  refine ⟨fun hh hfits hin hout => ?_, fun hh => ⟨startBad (setHost [] s), ⟨rfl, rfl⟩, fun n hn => ?_⟩⟩
  · have hs : s.Starts len := ⟨hi, hr, hh, hfits, hin, hout⟩
    refine ⟨fun n hn => ?_, fun k hk => ?_⟩
    · by_cases hlt : n < transactionOps s.build.fmt len
      · obtain ⟨t, hrun, ht⟩ := hs.running hn hlt
        exact ⟨t, hrun, fun _ => ht, fun hle => absurd hlt (Nat.not_lt.mpr hle)⟩
      · obtain ⟨t, hrun, ht⟩ := hs.ended (Nat.not_lt.mp hlt)
        exact ⟨t, hrun, fun h => absurd h hlt, fun _ => ht⟩
    · obtain ⟨t, hrun, ht⟩ := hs.runs_boundary hk
      exact ⟨t, hrun, ht.phase, ht.stage, ht.pos, ht.unitRemains_iff⟩
  · obtain ⟨m, rfl⟩ := Nat.exists_eq_add_of_le hn
    rw [runs_add (runs_one (step_startBad hi.built hr hh))]
    exact runs_waiting (s := startBad (setHost [] s)) hi.built rfl (by simp [startBad]) m

end Sys2Proof.Machine
end

section
/-! The sample unpacker (`41_unpack.md`): where `PACK` puts the status bits, the sample as a weighted sum, the layouts of
the two reference formats from their bytes, the order of the samples, and what `UNPACK` and its reference rows answer. -/

namespace Sys2Proof

/-! ### The status bits of `PACK` (R147) -/

theorem indexOf?_eq_none_iff {p : Nat} {l : List Nat} : indexOf? p l = none ↔ p ∉ l := by
  refine ⟨fun h => ?_, indexOf?_eq_none⟩
  induction l with
  | nil => exact List.not_mem_nil
  | cons q l ih =>
    by_cases hq : q = p
    · simp [indexOf?, hq] at h
    · have htail : indexOf? p l = none := by simpa [indexOf?, hq] using h
      exact List.not_mem_cons_of_ne_of_not_mem (Ne.symm hq) (ih htail)

/-- R91: `PACK` finds no lane for a position exactly where no lane names it. -/
theorem findLane_eq_none_iff {p : Nat} {ls : List (List Nat)} : findLane p ls = none ↔ ∀ l ∈ ls, p ∉ l := by
  induction ls with
  | nil => simp [findLane]
  | cons l ls ih =>
    rw [List.forall_mem_cons, ← ih, ← indexOf?_eq_none_iff, findLane]
    cases indexOf? p l <;> simp

/-- R147: the status bits are numbered by the non-lane positions below them. -/
theorem statusRank_eq (f : WireFormat) (p : Nat) :
    statusRank f p = (List.range p).countP fun q => decide (∀ lane ∈ f.lane, q ∉ lane) := by
  refine List.countP_congr fun q _ => ?_
  rw [Option.isNone_iff_eq_none, findLane_eq_none_iff, decide_eq_true_iff]

/-- R147: at a position of no lane stands the bit of the status value with that position's number. -/
theorem packUnit_bit_status {f : WireFormat} (raws : List Raw10) (st : Nat) {p : Nat} (hp : p < 8 * f.G)
    (hno : ∀ lane ∈ f.lane, p ∉ lane) : (packUnit f raws st).bit p = st.testBit (statusRank f p) := by
  rw [packUnit_bit _ _ _ hp, packBit, findLane_eq_none_iff.mpr hno]

/-- Settles O3: the lane bits by `packUnit_bit_lane`, the status bits by `packUnit_bit_status`, and the round trip by
`unpackUnit_packUnit`. -/
theorem unpackInvertsPack : Obligations.UnpackInvertsPack := by
  intro f raws st hf hlen
  refine ⟨rfl, fun j i p lane hlane hp => ?_, fun p hp hno => ?_, unpackUnit_packUnit hf hlen st⟩
  · obtain ⟨hj, rfl⟩ := List.getElem?_eq_some_iff.mp hlane
    obtain ⟨hi, rfl⟩ := List.getElem?_eq_some_iff.mp hp
    exact packUnit_bit_lane hf raws st hj hi
  · rw [packUnit_bit_status raws st hp hno, statusRank_eq]


/-! ### The sample as a number (R141) -/

/-- A vector as a number, its most significant bit first. -/
theorem toNat_bitsOfFn (n : Nat) (f : Nat → Bool) :
    (bitsOfFn n f).toNat = ((List.range n).map fun i => (f (n - 1 - i)).toNat * 2 ^ (n - 1 - i)).sum := by
  induction n with
  | zero => rfl
  | succ n ih =>
    rw [bitsOfFn, BitVec.toNat_cons', ih, List.range_succ_eq_map]
    simp [Function.comp_def, Nat.shiftLeft_eq, Nat.sub_sub, Nat.add_comm 1]

/-- R141: bit `9 - i` of a sample weighs `2^(9-i)` and is the unit bit that the lane's entry `i` names. -/
theorem toNat_unpackLane (u : Bits) (lane : List Nat) :
    (unpackLane u lane).toNat = ((List.range 10).map fun i => (u.bit (lane.getD i 0)).toNat * 2 ^ (9 - i)).sum := by
  rw [unpackLane, toNat_bitsOfFn]
  refine congrArg List.sum (List.map_congr_left fun i hi => ?_)
  have hback : 9 - (10 - 1 - i) = i := by
    have := List.mem_range.mp hi
    omega
  rw [hback]

theorem unpackUnit_getElem? (f : WireFormat) (u : Bits) (j : Nat) :
    (unpackUnit f u)[j]? = (f.lane[j]?).map (unpackLane u) := List.getElem?_map

/-- Settles O6: sample `j` is lane `j`'s, and ten bits stay below 1024. -/
theorem unpackSum : Obligations.UnpackSum := by
  intro f u j lane _ hlane
  exact ⟨unpackLane u lane, by rw [unpackUnit_getElem?, hlane, Option.map_some],
    Nat.le_of_lt_succ (unpackLane u lane).isLt, toNat_unpackLane u lane⟩


/-! ### Fields of a unit across a byte boundary (R81) -/

/-- The field of `U` that ends `n` bits into byte `k + 1` is the low `m` bits of byte `k` and the high `n` bits of byte
`k + 1`. -/
theorem joinBytes_field (bs : List Byte) {k lo m n : Nat} {x y : Byte} (hx : bs[k]? = some x)
    (hy : bs[k + 1]? = some y) (hlo : lo + n = 8 * (bs.length - 1 - k)) (hm : m ≤ 8) (hn : n ≤ 8) :
    (joinBytes bs).val.extractLsb' lo (m + n) = x.extractLsb' 0 m ++ y.extractLsb' (8 - n) n := by
  obtain ⟨hk, -⟩ := List.getElem?_eq_some_iff.mp hy
  refine BitVec.eq_of_getLsbD_eq fun i hi => ?_
  rw [BitVec.getLsbD_extractLsb', decide_eq_true hi, Bool.true_and, ← Bits.bit, joinBytes_bit _ _ (by omega),
    BitVec.getLsbD_append, List.getD_eq_getElem?_getD]
  split
  case isTrue hlow =>
    have hbyte : bs.length - 1 - (lo + i) / 8 = k + 1 := by omega
    have hbit : (lo + i) % 8 = 8 - n + i := by omega
    rw [hbyte, hbit, hy, Option.getD_some, BitVec.getLsbD_extractLsb', decide_eq_true hlow, Bool.true_and]
  case isFalse hhigh =>
    have hbyte : bs.length - 1 - (lo + i) / 8 = k := by omega
    have hbit : (lo + i) % 8 = 0 + (i - n) := by omega
    have hin : i - n < m := by omega
    rw [hbyte, hbit, hx, Option.getD_some, BitVec.getLsbD_extractLsb', decide_eq_true hin, Bool.true_and]

/-- A field of one whole byte and the high `n` bits of the next. -/
theorem joinBytes_field_byte (bs : List Byte) {k lo n : Nat} {x y : Byte} (hx : bs[k]? = some x)
    (hy : bs[k + 1]? = some y) (hlo : lo + n = 8 * (bs.length - 1 - k)) (hn : n ≤ 8) :
    (joinBytes bs).val.extractLsb' lo (8 + n) = x ++ y.extractLsb' (8 - n) n := by
  rw [joinBytes_field bs hx hy hlo le_rfl hn, BitVec.extractLsb'_eq_self]

/-- A field of the low `m` bits of one byte and the whole next byte. -/
theorem joinBytes_byte_field (bs : List Byte) {k lo m : Nat} {x y : Byte} (hx : bs[k]? = some x)
    (hy : bs[k + 1]? = some y) (hlo : lo + 8 = 8 * (bs.length - 1 - k)) (hm : m ≤ 8) :
    (joinBytes bs).val.extractLsb' lo (m + 8) = x.extractLsb' 0 m ++ y := by
  rw [joinBytes_field bs hx hy hlo hm le_rfl, Nat.sub_self, BitVec.extractLsb'_eq_self]

end Sys2Proof

namespace Sys2Proof.Machine

/-! ### The reference layouts (R145, R146) -/

/-- R145: sample `k` of `FMT_D40` takes `8 - 2*k` bits of byte `k` and `2 + 2*k` bits of the byte after it. -/
theorem unpackD40_joinBytes (b0 b1 b2 b3 b4 : Byte) : unpackD40 (joinBytes [b0, b1, b2, b3, b4]) =
    [b0 ++ b1.extractLsb' 6 2, b1.extractLsb' 0 6 ++ b2.extractLsb' 4 4,
      b2.extractLsb' 0 4 ++ b3.extractLsb' 2 6, b3.extractLsb' 0 2 ++ b4] := by
  have r0 := joinBytes_field_byte [b0, b1, b2, b3, b4] (k := 0) (lo := 30) (n := 2) rfl rfl rfl (by decide)
  have r1 := joinBytes_field [b0, b1, b2, b3, b4] (k := 1) (lo := 20) (m := 6) (n := 4) rfl rfl rfl (by decide)
    (by decide)
  have r2 := joinBytes_field [b0, b1, b2, b3, b4] (k := 2) (lo := 10) (m := 4) (n := 6) rfl rfl rfl (by decide)
    (by decide)
  have r3 := joinBytes_byte_field [b0, b1, b2, b3, b4] (k := 3) (lo := 0) (m := 2) rfl rfl rfl (by decide)
  rw [unpackD40, r0, r1, r2, r3]

/-- Settles O7: the fields are the definition of `unpackD40`. -/
theorem layoutD40 : Obligations.LayoutD40 :=
  ⟨fun u => ⟨rfl, unpackUnit_fmtD40 u⟩, unpackD40_joinBytes, rfl, by decide⟩

/-- R146: sample `j` of `FMT_W32` takes `2 + 2*j` bits of byte `2 - j` and `8 - 2*j` bits of the byte after it. -/
theorem unpackW32_joinBytes (b0 b1 b2 b3 : Byte) : unpackW32 (joinBytes [b0, b1, b2, b3]) =
    [b2.extractLsb' 0 2 ++ b3, b1.extractLsb' 0 4 ++ b2.extractLsb' 2 6, b0.extractLsb' 0 6 ++ b1.extractLsb' 4 4] := by
  have r0 := joinBytes_byte_field [b0, b1, b2, b3] (k := 2) (lo := 0) (m := 2) rfl rfl rfl (by decide)
  have r1 := joinBytes_field [b0, b1, b2, b3] (k := 1) (lo := 10) (m := 4) (n := 6) rfl rfl rfl (by decide)
    (by decide)
  have r2 := joinBytes_field [b0, b1, b2, b3] (k := 0) (lo := 20) (m := 6) (n := 4) rfl rfl rfl (by decide)
    (by decide)
  rw [unpackW32, r0, r1, r2]

/-- Settles O8: the fields are the definition of `unpackW32`. -/
theorem layoutW32 : Obligations.LayoutW32 :=
  ⟨fun u => ⟨rfl, unpackUnit_fmtW32 u⟩, unpackW32_joinBytes, rfl, by decide, by decide⟩


/-! ### The order of the samples (R142) -/

/-- Settles O17: word `k*S + j` of the result is word `j` of unit `k`, and that is the word of lane `j`. -/
theorem laneOrderIsTimeOrder : Obligations.LaneOrderIsTimeOrder := by
  intro f buf k j hf hk hj
  obtain ⟨-, -, -, hlanes, -⟩ := f.wf_facts hf
  have hj' : j < f.lane.length := hlanes.symm ▸ hj
  refine ⟨unpackLane (unitAt f buf k) f.lane[j], ?_, ?_⟩
  · rw [unpackUnit_getElem?, List.getElem?_eq_getElem hj', Option.map_some]
  · rw [decodeBuf_getElem? hf hk hj, unitWords_getElem? f buf hj']


/-! ### `UNPACK` and its reference rows (R140, R145, R146) -/

/-- R140: bits are copied without inversion, so a unit whose bits are all `c` gives samples whose bits are all `c`. -/
theorem eq_fill_of_mem_unpackUnit {f : WireFormat} (hf : f.wf = true) {u : Bits} {c : Bool}
    (hu : ∀ p, p < 8 * f.G → u.bit p = c) {r : Raw10} (hr : r ∈ unpackUnit f u) : r = BitVec.fill 10 c := by
  obtain ⟨-, -, -, -, hten, hrange, -⟩ := f.wf_facts hf
  obtain ⟨lane, hlane, rfl⟩ := List.mem_map.mp hr
  refine BitVec.eq_of_getLsbD_eq fun b hb => ?_
  rw [unpackLane_of_bits (hten lane hlane) (fun p hp => hu p (hrange lane hlane p hp)) hb, BitVec.getLsbD_fill,
    decide_eq_true hb, Bool.and_true]

theorem exec_unpack (s : State) : exec .unpack s = .next (setRaws (unpackUnit s.build.fmt s.u) s) := rfl

section ReferenceRows
variable {s : State}

theorem exec_unpackD40 (h : s.build.fmt = Config.fmtD40) : exec .unpackD40 s = .next (setRaws (unpackD40 s.u) s) :=
  if_pos h

theorem exec_unpackW32 (h : s.build.fmt = Config.fmtW32) : exec .unpackW32 s = .next (setRaws (unpackW32 s.u) s) :=
  if_pos h

theorem exec_unpackD40_otherFormat (h : s.build.fmt ≠ Config.fmtD40) : exec .unpackD40 s = .refused .otherFormat :=
  if_neg h

theorem exec_unpackW32_otherFormat (h : s.build.fmt ≠ Config.fmtW32) : exec .unpackW32 s = .refused .otherFormat :=
  if_neg h

end ReferenceRows

/-- Settles O31: the samples are `unpackUnit`'s, whose bits `laneExtraction` gives;
a uniform unit gives uniform samples. -/
theorem unpackWritesLanes : Obligations.UnpackWritesLanes := by
  intro s hf hwidth
  refine ⟨unpackUnit s.build.fmt s.u, exec_unpack s, unpackUnit_length_of_wf hf s.u, ?_, ?_, ?_⟩
  · intro j i p lane hlane hp
    obtain ⟨-, -, -, -, hten, -⟩ := s.build.fmt.wf_facts hf
    obtain ⟨hi, -⟩ := List.getElem?_eq_some_iff.mp hp
    obtain ⟨r, q, hr, hq, hbit⟩ := laneExtraction s.build.fmt s.u j i lane hf hlane
      (hten lane (List.mem_of_getElem? hlane) ▸ hi)
    obtain rfl : q = p := Option.some.inj (hq.symm.trans hp)
    exact ⟨r, hr, hbit⟩
  · intro hzero r hr
    have hbits (p : Nat) (_ : p < 8 * s.build.fmt.G) : s.u.bit p = false := by
      rw [Bits.bit, hzero, BitVec.getLsbD_zero]
    exact eq_fill_of_mem_unpackUnit hf hbits hr
  · intro hones r hr
    have hbits (p : Nat) (hp : p < 8 * s.build.fmt.G) : s.u.bit p = true := by
      rw [Bits.bit, hones, BitVec.getLsbD_allOnes, hwidth, decide_eq_true hp]
    exact eq_fill_of_mem_unpackUnit hf hbits hr

/-- Settles O32: on its format a row is `UNPACK`, whose samples there are the fields of `U` that the rule names. -/
theorem referenceRowsComplete : Obligations.ReferenceRowsComplete := by
  refine ⟨fun s h => ⟨exec_unpackD40 h, ?_⟩, fun s h => ⟨exec_unpackW32 h, ?_⟩,
    fun s => exec_unpackD40_otherFormat, fun s => exec_unpackW32_otherFormat⟩
  · rw [exec_unpackD40 h, exec_unpack, h, unpackUnit_fmtD40]
  · rw [exec_unpackW32 h, exec_unpack, h, unpackUnit_fmtW32]

end Sys2Proof.Machine
end

section
/-! The quantization normalizer (`42_normalize.md`): its function (R162, R165) and its operation (R160). -/

namespace Sys2Proof.Machine

/-! ### The function `NORM` (R162, R165) -/

/-- Settles O9: this is `normFn_toInt`. -/
theorem normSubtractsHalfScale : Obligations.NormSubtractsHalfScale := normFn_toInt

/-- R165: bit 9 inverted twice is bit 9. -/
theorem normFn_involutive : Function.Involutive normFn := fun r => by
  rw [normFn, normFn, BitVec.xor_assoc, BitVec.xor_self, BitVec.xor_zero]

/-- R165: subtracting the same 512 from both samples keeps their order. -/
theorem normFn_toInt_lt_iff {r1 r2 : Raw10} : (normFn r1).toInt < (normFn r2).toInt ↔ r1.toNat < r2.toNat := by
  rw [normFn_toInt, normFn_toInt, Int.sub_lt_sub_right_iff, Int.ofNat_lt]

/-- Settles O10: an involution is a bijection, and both signed values are the samples less 512. -/
theorem normBijectiveMonotone : Obligations.NormBijectiveMonotone :=
  ⟨normFn_involutive, normFn_involutive.bijective, fun _ _ => normFn_toInt_lt_iff.symm⟩

/-! ### The operation `NORM` (R160) -/

theorem exec_norm {s : State} {j : Nat} {r : Raw10} (hlane : s.raw[j]? = some r) :
    exec (.norm j) s = .next (setFx j (normFn r) s) := by
  change execNorm j s = _
  rw [execNorm, normOperand, readLane_ok.mpr hlane]

/-- Settles O33: the word written is `normFn r`, whose signed value is `normFn_toInt`. -/
theorem normWritesLane : Obligations.NormWritesLane := by
  intro s j r hlane
  exact ⟨normFn r, exec_norm hlane, rfl, normFn_toInt r⟩

end Sys2Proof.Machine
end

section
/-! The fixed-point-to-float converter (`43_convert.md`): the bits of a result word (R175, R179), its agreement with the
source's formula (R177, R182), its value and order (R176, R178, R181), and the operation (R175). -/

namespace Sys2Proof.Machine

/-! ### The bits of a word of `CVT` (R175, R179) -/

theorem f64Exp_toNat_f64Make {e : Nat} (s : Bool) (f : BitVec 52) (he : e < 2 ^ 11) :
    (f64Exp (f64Make s (BitVec.ofNat 11 e) f)).toNat = e := by
  rw [f64Exp_f64Make, BitVec.toNat_ofNat, Nat.mod_eq_of_lt he]

theorem f64Frac_toNat_f64Make {f : Nat} (s : Bool) (e : BitVec 11) (hf : f < 2 ^ 52) :
    (f64Frac (f64Make s e (BitVec.ofNat 52 f))).toNat = f := by
  rw [f64Frac_f64Make, BitVec.toNat_ofNat, Nat.mod_eq_of_lt hf]

theorem cvtFn_of_zero {x : Fx10} (h : x.toInt = 0) : cvtFn x = 0#64 := if_pos h

theorem natAbs_toInt_le (x : Fx10) : x.toInt.natAbs ≤ 512 := by
  have hhigh := BitVec.toInt_lt (x := x)
  have hlow := BitVec.le_toInt (x := x)
  omega

theorem zero_or_leadingOne (m : Nat) : m = 0 ∨ ∃ p, 2 ^ p ≤ m ∧ m < 2 ^ (p + 1) :=
  or_iff_not_imp_left.mpr fun h => ⟨Nat.log2 m, Nat.log2_self_le h, Nat.lt_log2_self⟩

theorem leadingOne_lt {m p n : Nat} (hlow : 2 ^ p ≤ m) (hm : m < 2 ^ n) : p < n :=
  (Nat.pow_lt_pow_iff_right (by omega)).mp (hlow.trans_lt hm)

section LeadingOne
variable {x : Fx10} {p : Nat}

/-- R179: the leading one of the magnitude of an `FX10` is at position 9 at most. -/
theorem leadingOne_lt_ten (hlow : 2 ^ p ≤ x.toInt.natAbs) : p < 10 :=
  leadingOne_lt hlow ((natAbs_toInt_le x).trans_lt (by norm_num))

/-- R175: the word, from the position of the leading one. -/
theorem cvtFn_of_leadingOne (hlow : 2 ^ p ≤ x.toInt.natAbs) (hhigh : x.toInt.natAbs < 2 ^ (p + 1)) :
    cvtFn x = f64Make (decide (x.toInt < 0)) (BitVec.ofNat 11 (1013 + p))
      (BitVec.ofNat 52 ((x.toInt.natAbs - 2 ^ p) * 2 ^ (52 - p))) := by
  have hm : x.toInt.natAbs ≠ 0 := (Nat.two_pow_pos p).trans_le hlow |>.ne'
  have hlog : Nat.log2 x.toInt.natAbs = p := (Nat.log2_eq_iff hm).mpr ⟨hlow, hhigh⟩
  simp only [cvtFn, if_neg (Int.natAbs_ne_zero.mp hm), hlog]

/-- R175: the three fields of the word. -/
theorem cvtFn_fields (hlow : 2 ^ p ≤ x.toInt.natAbs) (hhigh : x.toInt.natAbs < 2 ^ (p + 1)) :
    f64Sign (cvtFn x) = decide (x.toInt < 0) ∧ (f64Exp (cvtFn x)).toNat = 1013 + p ∧
      (f64Frac (cvtFn x)).toNat = (x.toInt.natAbs - 2 ^ p) * 2 ^ (52 - p) := by
  have hp := leadingOne_lt_ten hlow
  rw [cvtFn_of_leadingOne hlow hhigh]
  exact ⟨f64Sign_f64Make .., f64Exp_toNat_f64Make _ _ (by omega),
    f64Frac_toNat_f64Make _ _ (fraction_lt hhigh (by omega))⟩

/-- R179: at most 8 bits stand below the leading one, except for the magnitude 512, whose fraction is 0. -/
theorem dvd_fraction (hlow : 2 ^ p ≤ x.toInt.natAbs) : 2 ^ 44 ∣ (x.toInt.natAbs - 2 ^ p) * 2 ^ (52 - p) := by
  have hm := natAbs_toInt_le x
  have hp := leadingOne_lt_ten hlow
  obtain rfl | hp8 : p = 9 ∨ p ≤ 8 := by omega
  · have hzero : x.toInt.natAbs - 2 ^ 9 = 0 := by omega
    rw [hzero, Nat.zero_mul]
    exact dvd_zero _
  · exact dvd_mul_of_dvd_right (pow_dvd_pow 2 (by omega)) _

end LeadingOne

/-- Bits 43:0 of a word are the low bits of its fraction (R95). -/
theorem extractLsb'_low44_eq_zero_iff (w : F64) : w.extractLsb' 0 44 = 0#44 ↔ 2 ^ 44 ∣ (f64Frac w).toNat := by
  rw [← BitVec.toNat_inj, f64Frac, BitVec.extractLsb'_toNat, BitVec.extractLsb'_toNat, Nat.dvd_iff_mod_eq_zero,
    Nat.mod_mod_of_dvd _ (pow_dvd_pow 2 (by omega))]
  rfl

/-! ### Agreement with the source's formula (R177, R182) -/

theorem log2_mul_two_pow {m p : Nat} (i : Nat) (hlow : 2 ^ p ≤ m) (hhigh : m < 2 ^ (p + 1)) :
    Nat.log2 (m * 2 ^ i) = p + i := by
  have hm : m ≠ 0 := (Nat.two_pow_pos p).trans_le hlow |>.ne'
  rw [Nat.log2_eq_iff (Nat.mul_ne_zero hm (Nat.two_pow_pos i).ne'), Nat.add_right_comm, pow_add, pow_add 2 (p + 1)]
  exact ⟨Nat.mul_le_mul_right _ hlow, Nat.mul_lt_mul_of_pos_right hhigh (Nat.two_pow_pos i)⟩

/-- A magnitude below `2^53` is shifted left. -/
theorem roundDyadic_short {m p : Nat} (neg : Bool) (k : Nat) (hlow : 2 ^ p ≤ m) (hhigh : m < 2 ^ (p + 1))
    (hp : p ≤ 52) :
    roundDyadic neg m k =
      f64Make neg (BitVec.ofNat 11 (1023 + p - k)) (BitVec.ofNat 52 ((m - 2 ^ p) * 2 ^ (52 - p))) := by
  have hm : m ≠ 0 := (Nat.two_pow_pos p).trans_le hlow |>.ne'
  have hlog : Nat.log2 m = p := (Nat.log2_eq_iff hm).mpr ⟨hlow, hhigh⟩
  simp only [roundDyadic, if_neg hm, hlog, if_pos hp]

/-- A 53-bit number followed by zeros is not rounded: the rest is zero, which is not above and not equal to one half of
the last place. -/
theorem roundDyadic_zeros {q sh : Nat} (neg : Bool) (k : Nat) (hlow : 2 ^ 52 ≤ q) (hhigh : q < 2 ^ 53)
    (hsh : 0 < sh) :
    roundDyadic neg (q * 2 ^ sh) k =
      f64Make neg (BitVec.ofNat 11 (1023 + (52 + sh) - k)) (BitVec.ofNat 52 (q - 2 ^ 52)) := by
  have hm : q * 2 ^ sh ≠ 0 := Nat.mul_ne_zero (by omega) (Nat.two_pow_pos sh).ne'
  have hlong : ¬ 52 + sh ≤ 52 := by omega
  have hup : (decide (2 ^ (sh - 1) < 0) || decide (0 = 2 ^ (sh - 1)) && q % 2 == 1) = false := by
    simp [(Nat.two_pow_pos (sh - 1)).ne]
  simp only [roundDyadic, if_neg hm, log2_mul_two_pow sh hlow hhigh, if_neg hlong, Nat.add_sub_cancel_left,
    Nat.mul_div_cancel q (Nat.two_pow_pos sh), Nat.mul_mod_left, hup, Bool.false_eq_true, if_false, if_neg hhigh.ne]

/-- A magnitude of at most 53 significant bits, times any power of two, is not rounded. -/
theorem roundDyadic_of_leadingOne {m p : Nat} (neg : Bool) (k i : Nat) (hlow : 2 ^ p ≤ m) (hhigh : m < 2 ^ (p + 1))
    (hp : p ≤ 52) :
    roundDyadic neg (m * 2 ^ i) (k + i) =
      f64Make neg (BitVec.ofNat 11 (1023 + p - k)) (BitVec.ofNat 52 ((m - 2 ^ p) * 2 ^ (52 - p))) := by
  have hlow' : 2 ^ (p + i) ≤ m * 2 ^ i := pow_add 2 p i ▸ Nat.mul_le_mul_right _ hlow
  obtain hshort | hlong := le_or_gt (p + i) 52
  · have hhigh' : m * 2 ^ i < 2 ^ (p + i + 1) := by
      rw [Nat.add_right_comm, pow_add]
      exact Nat.mul_lt_mul_of_pos_right hhigh (Nat.two_pow_pos i)
    have hexp : 1023 + (p + i) - (k + i) = 1023 + p - k := by omega
    have hfrac : 52 - p = i + (52 - (p + i)) := by omega
    rw [roundDyadic_short neg (k + i) hlow' hhigh' hshort, hexp, hfrac, pow_add 2 p, ← Nat.sub_mul, Nat.mul_assoc,
      ← pow_add]
  · obtain ⟨sh, rfl⟩ : ∃ sh, i = 52 - p + sh := ⟨i - (52 - p), by omega⟩
    have hsum := leadingOne_add_fraction hlow hp
    have hlt := fraction_lt hhigh hp
    have hexp : 1023 + (52 + sh) - (k + (52 - p + sh)) = 1023 + p - k := by omega
    rw [pow_add, ← Nat.mul_assoc, ← hsum, roundDyadic_zeros neg _ (by omega) (by omega) (by omega), hexp,
      Nat.add_sub_cancel_left]

/-- Scaling a magnitude below `2^53` and its denominator by a power of two keeps the word. -/
theorem roundDyadic_scale {m : Nat} (neg : Bool) (k i : Nat) (hm : m < 2 ^ 53) :
    roundDyadic neg (m * 2 ^ i) (k + i) = roundDyadic neg m k := by
  obtain rfl | ⟨p, hlow, hhigh⟩ := zero_or_leadingOne m
  · simp [roundDyadic]
  · have hp : p ≤ 52 := Nat.lt_succ_iff.mp (leadingOne_lt hlow hm)
    rw [roundDyadic_of_leadingOne neg k i hlow hhigh hp, roundDyadic_short neg k hlow hhigh hp]

/-- R182: `CVT` is the binary64 word of the rational number `n / 1024`. -/
theorem cvtFn_eq_roundDyadic (x : Fx10) : cvtFn x = roundDyadic (decide (x.toInt < 0)) x.toInt.natAbs 10 := by
  obtain h0 | ⟨p, hlow, hhigh⟩ := zero_or_leadingOne x.toInt.natAbs
  · rw [cvtFn_of_zero (Int.natAbs_eq_zero.mp h0), Int.natAbs_eq_zero.mp h0]
    decide
  · have hp := leadingOne_lt_ten hlow
    have hexp : 1023 + p - 10 = 1013 + p := by omega
    rw [cvtFn_of_leadingOne hlow hhigh, roundDyadic_short _ 10 hlow hhigh (by omega), hexp]

/-- R177: the quotient `r / 1024` in binary64, read back, is `r` with its leading one at weight `2^52`. -/
theorem dyadicOf_quotient {r p : Nat} (hlow : 2 ^ p ≤ r) (hhigh : r < 2 ^ (p + 1)) (hp : p < 10) :
    dyadicOf (roundDyadic false r 10) = (false, r * 2 ^ (52 - p), 62 - p) := by
  rw [roundDyadic_short false 10 hlow hhigh (by omega), dyadicOf, f64Exp_toNat_f64Make _ _ (by omega), f64Sign_f64Make,
    f64Frac_toNat_f64Make _ _ (fraction_lt hhigh (by omega)), if_neg (by omega),
    leadingOne_add_fraction hlow (by omega)]
  congr 2
  omega

/-- The difference from one half, rounded once; the zero difference needs no case of its own, as it rounds to `+0`. -/
theorem subHalf_of_dyadicOf {w : F64} {m k : Nat} (h : dyadicOf w = (false, m, k)) :
    subHalf w = roundDyadic (decide ((m : Int) * 2 - 2 ^ k < 0)) ((m : Int) * 2 - 2 ^ k).natAbs (k + 1) := by
  have hdiff : (if false = true then -1 else 1) * ((m * 2 : Nat) : Int) - ((2 ^ (k + 1 - 1) : Nat) : Int) =
      (m : Int) * 2 - 2 ^ k := by simp
  simp only [subHalf, h, hdiff]
  split
  next hd => simp [hd, roundDyadic]
  next => rfl

/-- R177: `r / 1024 - 1 / 2` in binary64 is the word of `(r - 512) / 1024`: no operation rounds. -/
theorem sourceFormula_eq_roundDyadic (r : Raw10) :
    sourceFormula r = roundDyadic (decide ((r.toNat : Int) - 512 < 0)) ((r.toNat : Int) - 512).natAbs 10 := by
  obtain h0 | ⟨p, hlow, hhigh⟩ := zero_or_leadingOne r.toNat
  · obtain rfl : r = 0#10 := BitVec.eq_of_toNat_eq h0
    decide
  have hp := leadingOne_lt hlow r.isLt
  have hdiff : ((r.toNat * 2 ^ (52 - p) : Nat) : Int) * 2 - 2 ^ (62 - p) = ((r.toNat : Int) - 512) * 2 ^ (53 - p) := by
    have h53 : 53 - p = 52 - p + 1 := by omega
    have h62 : 62 - p = 52 - p + 10 := by omega
    rw [h53, h62]
    push_cast
    ring
  have hsign : ((r.toNat : Int) - 512) * 2 ^ (53 - p) < 0 ↔ (r.toNat : Int) - 512 < 0 :=
    ⟨fun h => neg_of_mul_neg_left h (by positivity), fun h => mul_neg_of_neg_of_pos h (by positivity)⟩
  have hk : 62 - p + 1 = 10 + (53 - p) := by omega
  have hlt := r.isLt
  rw [sourceFormula, subHalf_of_dyadicOf (dyadicOf_quotient hlow hhigh hp), hdiff, decide_eq_decide.mpr hsign, hk,
    Int.natAbs_mul, Int.natAbs_pow]
  exact roundDyadic_scale _ 10 _ (by omega)

theorem sampleWord_eq_sourceFormula (r : Raw10) : sampleWord r = sourceFormula r := by
  rw [sampleWord, cvtFn_eq_roundDyadic, normFn_toInt, sourceFormula_eq_roundDyadic]

/-- Settles O12: the value is `f64Value_sampleWord`; both words are that of `(r - 512) / 1024`. -/
theorem sampleWordExact : Obligations.SampleWordExact := fun r =>
  ⟨f64Value_sampleWord r, sampleWord_eq_sourceFormula r⟩

/-! ### Value, zero, order and injectivity (R176, R178, R181) -/

/-- Settles O11: this is `f64Value_cvtFn`. -/
theorem cvtValue : Obligations.CvtValue := f64Value_cvtFn

theorem cvtFn_injective : Function.Injective cvtFn := fun x1 x2 h => by
  have hvalue := congrArg f64Value h
  rw [f64Value_cvtFn, f64Value_cvtFn, Option.some_inj, div_left_inj' (by norm_num), Int.cast_inj] at hvalue
  exact BitVec.eq_of_toInt_eq hvalue

/-- Settles O15: all clauses follow from the value `sint(x) / 1024`. -/
theorem cvtMonotoneInjective : Obligations.CvtMonotoneInjective := by
  refine ⟨?_, cvtFn_injective, fun r1 r2 hr h => hr (normFn_involutive.injective (cvtFn_injective h)), fun r => ?_⟩
  · intro x1 x2 v1 v2 h1 h2
    rw [f64Value_cvtFn, Option.some_inj] at h1 h2
    rw [← h1, ← h2, div_lt_div_iff_of_pos_right (by norm_num), Int.cast_lt]
  · exact ⟨_, f64Value_sampleWord r, by ring⟩

/-- R178: a result word whose value is zero comes from the input zero. -/
theorem toInt_eq_zero_of_f64Value {x : Fx10} (h : f64Value (cvtFn x) = some 0) : x.toInt = 0 := by
  rw [f64Value_cvtFn, Option.some_inj] at h
  simpa using h

theorem cvtFn_eq_zero_iff {x : Fx10} : cvtFn x = 0#64 ↔ x.toInt = 0 :=
  ⟨fun h => toInt_eq_zero_of_f64Value (h ▸ by decide), cvtFn_of_zero⟩

/-- Settles O13: `-0.0` too has the value zero, so it could only come from the input zero, which gives `+0.0`. -/
theorem zeroIsPositive : Obligations.ZeroIsPositive := by
  refine fun x => ⟨cvtFn_eq_zero_iff, fun h => ?_⟩
  have hzero : cvtFn x = 0#64 := cvtFn_of_zero (toInt_eq_zero_of_f64Value (h ▸ by decide))
  exact absurd (hzero.symm.trans h) (by decide)

/-- Settles O14: the fields of a word other than `+0` by its leading one, and `CVT` is injective on 1024 inputs. -/
theorem resultWordSet : Obligations.ResultWordSet := by
  refine ⟨fun x => ?_, fun x => ?_, ?_⟩
  · obtain h0 | ⟨p, hlow, hhigh⟩ := zero_or_leadingOne x.toInt.natAbs
    · exact .inl (cvtFn_of_zero (Int.natAbs_eq_zero.mp h0))
    · obtain ⟨-, hexp, -⟩ := cvtFn_fields hlow hhigh
      have hp := leadingOne_lt_ten hlow
      exact .inr (by omega)
  · obtain h0 | ⟨p, hlow, hhigh⟩ := zero_or_leadingOne x.toInt.natAbs
    · rw [cvtFn_of_zero (Int.natAbs_eq_zero.mp h0)]
      decide
    · obtain ⟨-, -, hfrac⟩ := cvtFn_fields hlow hhigh
      rw [extractLsb'_low44_eq_zero_iff, hfrac]
      exact dvd_fraction hlow
  · rw [Finset.card_image_of_injective _ cvtFn_injective, Finset.card_univ, ← FinEnum.card_eq_fintypeCard,
      FinEnum.card_bitVec]
    norm_num

/-! ### The operation `CVT` (R175) -/

theorem exec_cvt {s : State} {j : Nat} {x : Fx10} (hlane : s.fx[j]? = some x) :
    exec (.cvt j) s = .next (setF64 j (cvtFn x) s) := by
  change execCvt j s = _
  rw [execCvt, cvtOperand, readLane_ok.mpr hlane]

/-- Settles O34: the word written is `cvtFn x`, whose fields are `cvtFn_fields`. -/
theorem cvtWritesLane : Obligations.CvtWritesLane := by
  intro s j x hlane
  exact ⟨cvtFn x, exec_cvt hlane, cvtFn_of_zero, fun p => cvtFn_fields⟩

end Sys2Proof.Machine
end

section
/-! Contract violations and progress (`60_exceptions.md`): the one exception and the recovery from it (R200, R206, R207),
the violations that are refused (R202), no stop inside a transaction (R201), and several blocks side by side (R210). -/

namespace Sys2Proof.Machine

/-! ### The one exception (R200) and the next `START` (R206, R207) -/

/-- Settles O28: the answer is `startBad`, which latches `PRESENT = 0`. -/
theorem contractViolationEntry : Obligations.ContractViolationEntry := fun _ len hr =>
  ⟨false, execDecode_absent len hr⟩

section Recovery
variable {s : State} {len : Nat} {rest : List HostMove}

/-- R118 `start-bad`, with moves of the host still to come. -/
theorem step_startBad_of_host (hb : s.build.wf = true) (hr : s.phase ≠ .run)
    (hh : s.host = .start (encodeCmd s.build.lenW false len) :: rest) : step s = .next (startBad (setHost rest s)) := by
  obtain ⟨l, hl⟩ := decode_encodeCmd_present s.build false len
  exact step_start hb hh hl (execDecode_absent (s := setHost rest s) l hr)

/-- R206, R207: the exception leaves the block where a `START` is accepted, with the host's promises as they were. -/
theorem State.Inv.starts_startBad (hi : s.Inv) (hfits : len < 2 ^ s.build.lenW) (hin : inHolds s.inMem len = true)
    (hout : countOf s.build.fmt len ≤ s.build.outCap) :
    (startBad (setHost [.start (encodeCmd s.build.lenW true len)] s)).Starts len where
  inv := (hi.of_setHost _).of_startBad
  notRun := by simp [startBad]
  host := rfl
  fits := hfits
  input := hin
  output := hout

end Recovery

/-- Settles O57: the first `START` takes one step to `startBad`, from where the second is a whole transaction. -/
theorem errorThenRecovery : Obligations.ErrorThenRecovery := by
  intro s len len2 hi hr hh hfits hin hout
  have hbad := runs_one (step_startBad_of_host hi.built hr hh)
  obtain ⟨t2, hrun, ht2⟩ := (hi.starts_startBad hfits hin hout).runs_finished
  exact ⟨_, t2, hbad, ⟨rfl, rfl⟩, rfl, rfl, rfl, (runs_add hbad).trans hrun, ⟨ht2.phase, ht2.err⟩, ht2.trace⟩


/-! ### The violations the block cannot see (R202) -/

section Refusals
variable {s : State} {len : Nat}

theorem execDecode_running (p : Bool) (len : Nat) (hr : s.phase = .run) :
    execDecode p len s = .refused .startWhileRunning := if_pos hr

theorem inHolds_eq_false {m : Memory 8} {n i : Nat} (hi : i < n) (hbyte : Memory.read m i = none) :
    inHolds m n = false := by
  rw [← Bool.not_eq_true, inHolds_iff]
  intro hheld
  obtain ⟨b, hb⟩ := hheld i hi
  simp [hbyte] at hb

theorem execDecode_inputTooShort (hr : s.phase ≠ .run) (hin : inHolds s.inMem len = false) :
    execDecode true len s = .refused .inputTooShort := by
  simp [execDecode, hr, hin]

theorem execDecode_outputTooSmall (hr : s.phase ≠ .run) (hin : inHolds s.inMem len = true)
    (hout : s.build.outCap < countOf s.build.fmt len) : execDecode true len s = .refused .outputTooSmall := by
  simp [execDecode, hr, hin, hout]

theorem hostMove_writeIn_running {i : Nat} (b : Byte) (hr : s.phase = .run) (hi : i < s.len) :
    hostMove (.writeIn i b) s = .refused .inputWrittenWhileRunning := by
  refine if_neg fun hmay => ?_
  obtain hr' | hle := (mayWriteIn_iff s i).mp hmay
  · exact hr' hr
  · exact Nat.not_le.mpr hi hle

theorem hostMove_place_running (bytes : List Byte) (hr : s.phase = .run) :
    hostMove (.place bytes) s = .refused .inputWrittenWhileRunning := if_pos hr

end Refusals

/-- Settles O29: three refusals of `DECODE`, one for each broken promise, and two of the host's writes to `IN`. -/
theorem unseenViolationsRefused : Obligations.UnseenViolationsRefused := by
  refine ⟨fun _ p len hr => execDecode_running p len hr,
    fun _ _ _ hr hi hbyte => execDecode_inputTooShort hr (inHolds_eq_false hi hbyte),
    fun _ _ hr hin hout => execDecode_outputTooSmall hr hin hout,
    fun s i b rest hb hr hi hh => ?_, fun s bytes rest hb hr hh => ?_⟩
  · rw [step_of_host hb hh]
    exact hostMove_writeIn_running b hr hi
  · rw [step_of_host hb hh]
    exact hostMove_place_running bytes hr


/-! ### No stop inside a transaction (R201) -/

/-- R28: no operation of the sequencer writes `ERR`. -/
theorem SeqStep.err {s t : State} (h : SeqStep s t) : t.err = s.err := by
  cases h with
  | skip | unpack | drop | norm | cvt | emit | emitLast => rfl

/-- Settles O52: every stage has its step, and that is a step of the sequencer, which leaves `ERR = 0`. -/
theorem noStopInTransaction : Obligations.NoStopInTransaction := by
  intro s hi hr hh
  obtain ⟨t, ht⟩ := hi.exists_step_run hh hr
  have hseq : SeqStep s t := blockStep_run hr (step_of_block hi.built hh ▸ ht)
  exact ⟨t, ht, hseq.err.trans (hi.running hr).noError⟩


/-! ### Several blocks side by side (R210) -/

/-- What a step of the fleet can do: nothing where the list has no place `k`, or the step of the block there. -/
theorem fleetStep_next {k : Nat} {fleet fleet' : List State} (h : fleetStep k fleet = .next fleet') :
    (fleet[k]? = none ∧ fleet' = fleet) ∨
    ∃ s t, fleet[k]? = some s ∧ step s = .next t ∧ fleet' = fleet.set k t := by
  unfold fleetStep at h
  split at h
  · cases h
    exact .inl ⟨‹_›, rfl⟩
  · rename_i s hs
    split at h
    · rename_i t ht
      cases h
      exact .inr ⟨s, t, hs, ht, rfl⟩
    · cases h
    · cases h

/-- Settles O60: the step writes place `k` of the list, with the next state of the block that stands there. -/
theorem instancesShareNothing : Obligations.InstancesShareNothing := by
  intro fleet fleet' k h
  obtain ⟨hnone, rfl⟩ | ⟨s, t, hs, ht, rfl⟩ := fleetStep_next h
  · exact ⟨rfl, fun _ _ => rfl, fun s hs => by simp [hnone] at hs⟩
  · obtain ⟨hk, -⟩ := List.getElem?_eq_some_iff.mp hs
    refine ⟨List.length_set, fun j hj => List.getElem?_set_ne hj.symm, fun s' hs' => ?_⟩
    obtain rfl : s = s' := Option.some.inj (hs.symm.trans hs')
    exact ⟨t, ht, List.getElem?_set_self hk⟩

end Sys2Proof.Machine
end

section
/-! Reset during operation (`70_reset_and_hazards.md`): what the host's reset does in any phase (R230, R231). -/

namespace Sys2Proof.Machine

/-- R231: a reset is taken in every phase, `RUN` among them, with the move consumed. -/
theorem step_reset {s : State} {rest : List HostMove} (hb : s.build.wf = true) (hh : s.host = .reset :: rest) :
    step s = .next (resetMove (setHost rest s)) :=
  step_of_host hb hh

/-- Settles O44: the next state is `resetMove`'s, whose fields are R230's; consuming the move touches neither `IN` nor
`fmt`. (The obligation's own name is the model's function `resetMove`.) -/
theorem resetMove_effect : Obligations.ResetMove := by
  intro s rest hb hh
  have hin : (resetMove (setHost rest s)).inMem = s.inMem := by rw [resetMove_inMem, setHost_inMem]
  have hbuild : (resetMove (setHost rest s)).build = s.build := by rw [resetMove_build, setHost_build]
  exact ⟨_, step_reset hb hh, resetMove_phase _, resetMove_done _, resetMove_err _, resetMove_count _, hin, hbuild⟩

end Sys2Proof.Machine
end
